-- ==== Sys2Proof/Word.lean ====
section
/-! DEFINITION. The two word types of CORE: the int8 element and the int32 element, command word and data operand
(00_scope.md R7, R8). Both hold bit patterns; a rule that reads one as a signed integer uses `BitVec.toInt`. -/

namespace Sys2Proof

/-- An `int8` element, as its two's-complement bit pattern (00_scope.md R7 `EW`, R9). -/
abbrev Byte := BitVec 8

/-- A 32-bit word: an `int32` element, a command word, a data operand or a CSR (00_scope.md R7 `AW`, R8 `CW`, `DW`). -/
abbrev Word := BitVec 32

end Sys2Proof
end

