-- ==== Sys2Proof/Config.lean ====
section
/-! DEFINITION. The fixed parameters of CORE (00_scope.md R7, R8) and its one free value (93_implementation_defined.md U1). -/

namespace Sys2Proof.Config

/-- `TROWS`: physical rows of every tile (00_scope.md R7). -/
@[simp] abbrev tileRows : Nat := 16

/-- `TCOLB`: physical byte columns of an operand tile (00_scope.md R7). -/
@[simp] abbrev tileByteCols : Nat := 64

/-- `ACOLS`: physical dword columns of the accumulator tile (00_scope.md R7). -/
@[simp] abbrev accCols : Nat := 16

/-- `LANES`: bytes of one dword group (00_scope.md R7). -/
@[simp] abbrev lanes : Nat := 4

/-- `NPART`: partitions of one matrix (00_scope.md R7). -/
@[simp] abbrev partitions : Nat := 4

/-- `BUFCAP`: elements of each input-matrix buffer (00_scope.md R8). -/
@[simp] abbrev bufferSize : Nat := 4096

/-- `VCAP`: elements of the result vector (00_scope.md R8). -/
@[simp] abbrev vectorSize : Nat := 64

/-- `MMAX`: the largest M the Pipeline accepts (00_scope.md R8). -/
@[simp] abbrev maxRows : Nat := 64

/-- Elements of an operand tile: 16 rows of 64 bytes (20_memory.md R41). -/
@[simp] abbrev tileSize : Nat := 1024

/-- Elements of the accumulator tile: 16 rows of 16 dwords (20_memory.md R41). -/
@[simp] abbrev accSize : Nat := 256

/-- FREE VALUE, DESIGN CHOICE (notes/assumptions/6.md): the int8 that an out-of-range `EWR` stores while
`CTRL.STRICT` is 0. 93_implementation_defined.md U1 allows every value and asks for a function
`narrow_nonstrict : int32 → int8` taken as a parameter; it is used only outside [-128, 127]. Safe: nothing
constrains it. -/
opaque narrowNonstrict : Word → Byte

end Sys2Proof.Config
end

