-- ==== Sys2Proof/Syntax.lean ====
section
/-! DEFINITION. The eight commands of CORE (30_encoding.md R65), the command and its operand as the host presents
them (R60), and the names a format E command can address (20_memory.md R41; 10_state.md R19). -/

namespace Sys2Proof

/-- One command with the fields of its word (30_encoding.md R61 to R65). A format E command keeps `sp` and `idx` as the
word carries them: R65 selects its row whatever they are, and R66 (c), (d), (e) then judge them. `value` is the
separate data operand `wdata`, which only `EWR` uses (R60). -/
inductive Instr where
  /-- `EWR sp, idx, value`: write one element or one CSR (42_access.md R131). -/
  | ewr (sp : BitVec 4) (idx : BitVec 12) (value : Word)
  /-- `ERD sp, idx`: read one element or one CSR (42_access.md R132). -/
  | erd (sp : BitVec 4) (idx : BitVec 12)
  /-- `TZERO`: zero the accumulator tile (40_engine.md R84). -/
  | tzero
  /-- `TMAC`: `multiply_accumulate(ACC, TA, TB)` (40_engine.md R85). -/
  | tmac
  /-- `PLDA i`: load the left operand of pair i into TA (41_pipeline.md R112). -/
  | plda (i : BitVec 2)
  /-- `PLDB i`: load the right operand of pair i into TB (41_pipeline.md R113). -/
  | pldb (i : BitVec 2)
  /-- `PDIAG i`: extract the diagonal of ACC into segment i of V (41_pipeline.md R114). -/
  | pdiag (i : BitVec 2)
  /-- `HCS`: `hadamard_column_sum(F, K) -> V` (41_pipeline.md R116). -/
  | hcs
deriving DecidableEq, Repr

/-- What the host presents on the command port: the command word and the data operand (30_encoding.md R60). -/
structure Command where
  cmd : Word
  wdata : Word
deriving DecidableEq, Repr

/-- The seven element spaces (20_memory.md R41). -/
inductive Space where
  | ta | tb | acc | f | k | v | csr
deriving DecidableEq, Repr

/-- The eight control and status registers (10_state.md R19). -/
inductive Csr where
  | ctrl | status | taShape | tbShape | accShape | fShape | kShape | vLen
deriving DecidableEq, Repr

/-- One element of one space, its index within the space's size (20_memory.md R41): what a legal pair of `sp` and
`idx` names. -/
inductive Element where
  | ta (i : Nat)
  | tb (i : Nat)
  | acc (i : Nat)
  | f (i : Nat)
  | k (i : Nat)
  | v (i : Nat)
  | csr (r : Csr)
deriving DecidableEq, Repr

end Sys2Proof
end

