-- ==== Sys2Proof/Machine/Operands.lean ====
section
/-! DEFINITION. The operand forms of CORE: which element a pair of space code and index names, which targets may be
written, the index maps of the tiles, and the byte image of a 32-bit element (20_memory.md R41 to R46;
30_encoding.md R62, R66; 42_access.md R135). -/

namespace Sys2Proof.Machine

/-- The space a 4-bit code names; codes 0 and 8 to 15 name none (20_memory.md R41). -/
def spaceOfCode (sp : BitVec 4) : Option Space :=
  match sp.toNat with
  | 1 => some .ta
  | 2 => some .tb
  | 3 => some .acc
  | 4 => some .f
  | 5 => some .k
  | 6 => some .v
  | 7 => some .csr
  | _ => none

/-- The size of a space: its legal indices lie below it (20_memory.md R41). -/
def spaceSize : Space → Nat
  | .ta => Config.tileSize
  | .tb => Config.tileSize
  | .acc => Config.accSize
  | .f => Config.bufferSize
  | .k => Config.bufferSize
  | .v => Config.vectorSize
  | .csr => 8

/-- The CSR of a number; 8 and above do not exist (10_state.md R19). -/
def csrOfNumber : Nat → Option Csr
  | 0 => some .ctrl
  | 1 => some .status
  | 2 => some .taShape
  | 3 => some .tbShape
  | 4 => some .accShape
  | 5 => some .fShape
  | 6 => some .kShape
  | 7 => some .vLen
  | _ => none

/-- The element that index `i` of a space names, once `i` is below the size of the space. -/
def elementOfSpace (space : Space) (i : Nat) : Option Element :=
  match space with
  | .ta => some (.ta i)
  | .tb => some (.tb i)
  | .acc => some (.acc i)
  | .f => some (.f i)
  | .k => some (.k i)
  | .v => some (.v i)
  | .csr => (csrOfNumber i).map .csr

/-- The element a format E command addresses, or none where 30_encoding.md R66 (c) or (d) makes it illegal. -/
def element (sp : BitVec 4) (idx : BitVec 12) : Option Element :=
  match spaceOfCode sp with
  | none => none
  | some space => if idx.toNat < spaceSize space then elementOfSpace space idx.toNat else none

/-- Whether the host may write an element: not V, `STATUS` or `V_LEN` (30_encoding.md R66 (e); 42_access.md R135). -/
def hostWritable : Element → Bool
  | .v _ => false
  | .csr .status => false
  | .csr .vLen => false
  | _ => true

/-- A format E read is legal when its operands name an element (30_encoding.md R66 (c), (d)). -/
def readLegal (sp : BitVec 4) (idx : BitVec 12) : Bool :=
  (element sp idx).isSome

/-- A format E write is legal when its operands name an element that the host may write (30_encoding.md R66 (c), (d), (e)). -/
def writeLegal (sp : BitVec 4) (idx : BitVec 12) : Bool :=
  match element sp idx with
  | none => false
  | some e => hostWritable e

/-- The index of `TA[r][c]` or `TB[r][c]` (20_memory.md R41, R44). -/
def tileIndex (r c : Nat) : Nat := 64 * r + c

/-- The index of `ACC[r][n]` (20_memory.md R41, R44). -/
def accIndex (r n : Nat) : Nat := 16 * r + n

/-- The byte column that is lane `i` of dword `k` of a tile row (20_memory.md R43). -/
def laneColumn (k i : Nat) : Nat := 4 * k + i

/-- The flat index of element (r, c) of a matrix with `cols` columns, row-major (20_memory.md R44; 10_state.md R17). -/
def rowMajor (cols r c : Nat) : Nat := r * cols + c

/-- The byte image of a 32-bit element, lowest address first: the byte at the lowest address holds bits 7:0
(20_memory.md R45). No command exposes it. -/
def byteImage (x : Word) : List Byte :=
  [x.extractLsb' 0 8, x.extractLsb' 8 8, x.extractLsb' 16 8, x.extractLsb' 24 8]

end Sys2Proof.Machine
end

