-- ==== Sys2Proof/WellFormed.lean ====
section
/-! DEFINITION. Which commands have legal operands (30_encoding.md R66 (c), (d), (e)). A word that selects a row of the
opcode map and whose command is not well formed completes with `IllegalCommand` like any other illegal word. -/

namespace Sys2Proof

/-- The operands of the command are legal (30_encoding.md R66). Only format E can fail: every partition index is legal
(R63) and format Z has no field (R64). -/
def Instr.wellFormed : Instr → Bool
  | .ewr sp idx _ => Machine.writeLegal sp idx
  | .erd sp idx => Machine.readLegal sp idx
  | .tzero => true
  | .tmac => true
  | .plda _ => true
  | .pldb _ => true
  | .pdiag _ => true
  | .hcs => true

end Sys2Proof
end

