-- ==== Sys2Proof/Decode.lean ====
section
/-! DEFINITION. The decoder of command words (30_encoding.md R61 to R67, R71), total on every word and rejecting by name;
after it the encoder (R65, R69) and the assembler's pseudo-instructions (R70). -/

namespace Sys2Proof

/-- Why a word selects no row of the opcode map: 30_encoding.md R66 (a) and (b). -/
inductive DecodeError where
  /-- `op` is 0x0 or 0x9 to 0xF: R66 (a). -/
  | noSuchOpcode
  /-- A bit that its format says must be 0 is 1: R66 (b). -/
  | reservedBitSet
deriving DecidableEq, Repr

/-- `cmd[31:28]`: the opcode of every format (30_encoding.md R61). -/
def opField (w : Word) : BitVec 4 := w.extractLsb' 28 4

/-- `cmd[27:24]`: the space code of format E (30_encoding.md R62). -/
def spField (w : Word) : BitVec 4 := w.extractLsb' 24 4

/-- `cmd[11:0]`: the element index of format E (30_encoding.md R62). -/
def idxField (w : Word) : BitVec 12 := w.extractLsb' 0 12

/-- `cmd[1:0]`: the partition index of format P (30_encoding.md R63). -/
def partField (w : Word) : BitVec 2 := w.extractLsb' 0 2

/-- The instruction `i` if the format's reserved bits are 0, the named refusal otherwise (30_encoding.md R66 (b)). -/
def ifReservedZero (reservedZero : Bool) (i : Instr) : Except DecodeError Instr :=
  if reservedZero then .ok i else .error .reservedBitSet

/-- The instruction whose row of the opcode map the word selects (30_encoding.md R65, R71). The operand tests
R66 (c), (d), (e), which leave the row selected, are `Instr.wellFormed`. -/
def decode (c : Command) : Except DecodeError Instr :=
  match (opField c.cmd).toNat with
  | 1 => ifReservedZero (c.cmd.extractLsb' 12 12 == 0) (.ewr (spField c.cmd) (idxField c.cmd) c.wdata)
  | 2 => ifReservedZero (c.cmd.extractLsb' 12 12 == 0) (.erd (spField c.cmd) (idxField c.cmd))
  | 3 => ifReservedZero (c.cmd.extractLsb' 0 28 == 0) .tzero
  | 4 => ifReservedZero (c.cmd.extractLsb' 0 28 == 0) .tmac
  | 5 => ifReservedZero (c.cmd.extractLsb' 2 26 == 0) (.plda (partField c.cmd))
  | 6 => ifReservedZero (c.cmd.extractLsb' 2 26 == 0) (.pldb (partField c.cmd))
  | 7 => ifReservedZero (c.cmd.extractLsb' 2 26 == 0) (.pdiag (partField c.cmd))
  | 8 => ifReservedZero (c.cmd.extractLsb' 0 28 == 0) .hcs
  | _ => .error .noSuchOpcode

/-- A legal command: its word selects a row and its operands are legal (30_encoding.md R66, R71). -/
def legalCommand (c : Command) : Bool :=
  match decode c with
  | .ok i => i.wellFormed
  | .error _ => false

/-- The command whose bits are `w`, the command word in bits 31:0 and the data operand in bits 63:32, with every bit at
`nbits` or above 0 (notes/assumptions/7.md). -/
def commandOfBits (nbits w : Nat) : Command :=
  let bits := w % 2 ^ nbits
  { cmd := BitVec.ofNat 32 bits, wdata := BitVec.ofNat 32 (bits / 2 ^ 32) }

/-- The instruction the decoder reads from a row of the opcode table whose bits are `w`; none where it refuses. -/
def decodeTableWord (nbits w : Nat) : Option Instr :=
  match decode (commandOfBits nbits w) with
  | .ok i => some i
  | .error _ => none

/-- A format E word with opcode bits `op`: `op | sp<<24 | idx` (30_encoding.md R62, R69). -/
def encodeE (op : Word) (sp : BitVec 4) (idx : BitVec 12) : Word :=
  op ||| sp.setWidth 32 <<< 24 ||| idx.setWidth 32

/-- A format P word with opcode bits `op`: `op | i` (30_encoding.md R63, R69). -/
def encodeP (op : Word) (i : BitVec 2) : Word :=
  op ||| i.setWidth 32

/-- The command of an instruction (30_encoding.md R65, R69): the data operand is the value of `EWR`, and is written 0
for the commands that ignore it. -/
def encode : Instr → Command
  | .ewr sp idx value => { cmd := encodeE 0x10000000#32 sp idx, wdata := value }
  | .erd sp idx => { cmd := encodeE 0x20000000#32 sp idx, wdata := 0 }
  | .tzero => { cmd := 0x30000000#32, wdata := 0 }
  | .tmac => { cmd := 0x40000000#32, wdata := 0 }
  | .plda i => { cmd := encodeP 0x50000000#32 i, wdata := 0 }
  | .pldb i => { cmd := encodeP 0x60000000#32 i, wdata := 0 }
  | .pdiag i => { cmd := encodeP 0x70000000#32 i, wdata := 0 }
  | .hcs => { cmd := 0x80000000#32, wdata := 0 }

/-- The code of a space (20_memory.md R41). -/
def spaceCode : Space → BitVec 4
  | .ta => 1
  | .tb => 2
  | .acc => 3
  | .f => 4
  | .k => 5
  | .v => 6
  | .csr => 7

/-- The number of a CSR (10_state.md R19). -/
def csrNumber : Csr → BitVec 12
  | .ctrl => 0
  | .status => 1
  | .taShape => 2
  | .tbShape => 3
  | .accShape => 4
  | .fShape => 5
  | .kShape => 6
  | .vLen => 7

/-- `EWR CSR, <reg>, value` with the register's name (30_encoding.md R69). -/
def asmWriteCsr (r : Csr) (value : Word) : Instr := .ewr (spaceCode .csr) (csrNumber r) value

/-- `ERD CSR, <reg>` with the register's name (30_encoding.md R69). -/
def asmReadCsr (r : Csr) : Instr := .erd (spaceCode .csr) (csrNumber r)

/-- `SHAPE <reg>, <rows>, <cols>` expands to `EWR CSR, <reg>, rows + 256*cols` (30_encoding.md R70). -/
def asmShape (r : Csr) (rows cols : Nat) : Instr := asmWriteCsr r (BitVec.ofNat 32 (rows + 256 * cols))

/-- `STRICT <b>` expands to `EWR CSR, CTRL, b` (30_encoding.md R70). -/
def asmStrict (b : Bool) : Instr := asmWriteCsr .ctrl (if b then 1 else 0)

/-- `EWR TA[r][c], v` (30_encoding.md R70). -/
def asmWriteTA (r c : Nat) (v : Word) : Instr := .ewr (spaceCode .ta) (BitVec.ofNat 12 (Machine.tileIndex r c)) v

/-- `EWR TB[r][c], v` (30_encoding.md R70). -/
def asmWriteTB (r c : Nat) (v : Word) : Instr := .ewr (spaceCode .tb) (BitVec.ofNat 12 (Machine.tileIndex r c)) v

/-- `EWR ACC[r][n], v` (30_encoding.md R70). -/
def asmWriteACC (r n : Nat) (v : Word) : Instr := .ewr (spaceCode .acc) (BitVec.ofNat 12 (Machine.accIndex r n)) v

/-- `ERD TA[r][c]` (30_encoding.md R70). -/
def asmReadTA (r c : Nat) : Instr := .erd (spaceCode .ta) (BitVec.ofNat 12 (Machine.tileIndex r c))

/-- `ERD TB[r][c]` (30_encoding.md R70). -/
def asmReadTB (r c : Nat) : Instr := .erd (spaceCode .tb) (BitVec.ofNat 12 (Machine.tileIndex r c))

/-- `ERD ACC[r][n]` (30_encoding.md R70). -/
def asmReadACC (r n : Nat) : Instr := .erd (spaceCode .acc) (BitVec.ofNat 12 (Machine.accIndex r n))

/-- `ERD V[j]` (30_encoding.md R70). -/
def asmReadV (j : Nat) : Instr := .erd (spaceCode .v) (BitVec.ofNat 12 j)

end Sys2Proof
end

