-- ==== Sys2Proof/Machine/State.lean ====
section
/-! DEFINITION. The state of CORE: everything 10_state.md gives the machine, as plain data, with what the host has still
to present and the responses it has been given; the reasons a step can stop; and the state right after reset
(10_state.md R27; 70_reset_and_hazards.md R180). -/

namespace Sys2Proof.Machine

/-- The status codes a command can complete with (60_exceptions.md R150). Codes 5, 6 and 7 are never produced and so
have no name (93_implementation_defined.md U5). -/
inductive StatusCode where
  /-- 0: the command did what its rule says. -/
  | ok
  /-- 1: operand dimensions do not fit. -/
  | shapeMismatch
  /-- 2: a dimension exceeds what one tile operation can represent. -/
  | dimensionTooLarge
  /-- 3: an element falls outside the signed 8-bit range. -/
  | outOfRange
  /-- 4: the command is not a legal encoding. -/
  | illegalCommand
deriving DecidableEq, Repr

/-- The two fields of a shape register: a row count in bits 7:0 and a column count in bits 15:8 (10_state.md R22). The
reserved bits 31:16 read 0 and ignore writes, so they have no storage (notes/assumptions/9.md). -/
structure Shape where
  rows : BitVec 8
  cols : BitVec 8
deriving DecidableEq, Repr

/-- The fields of `STATUS` (10_state.md R21). The reserved bits 3 and 31:8 read 0 and the host cannot write the
register, so they have no storage (notes/assumptions/9.md). -/
structure Status where
  /-- Bits 2:0: the status code of the most recently completed command. -/
  last : StatusCode
  /-- Bit 4. -/
  smSeen : Bool
  /-- Bit 5. -/
  dtlSeen : Bool
  /-- Bit 6. -/
  oorSeen : Bool
  /-- Bit 7. -/
  illSeen : Bool
deriving DecidableEq, Repr

/-- What CORE answers to one command (30_encoding.md R60). -/
structure Response where
  status : StatusCode
  rdata : Word
deriving DecidableEq, Repr

/-- The storage of one element space as pairs of index and element: indices strictly rising, no pair holding the element
0; an index that is not listed holds 0 (notes/assumptions/8.md). Every content of the space has exactly one such list. -/
abbrev Store (w : Nat) := List (Nat × BitVec w)

/-- The storage of a space of int8 elements, a list of the host's byte cells. -/
abbrev Memory := List Host.Cell

/-- The canonical form of a storage with `size` elements. -/
abbrev Store.wf {w : Nat} (size : Nat) (m : Store w) : Prop :=
  m.Pairwise (fun p q => p.1 < q.1) ∧ ∀ p ∈ m, p.2 ≠ 0 ∧ p.1 < size

/-- The canonical form of a byte storage with `size` elements. -/
abbrev Memory.wf (size : Nat) (m : Memory) : Prop :=
  Store.wf size m

/-- What the data storage holds when a reset is over. 10_state.md R27 leaves it unspecified, so the reset event carries
it and nothing constrains it (93_implementation_defined.md U2; notes/assumptions/2.md). -/
structure Contents where
  ta : Memory
  tb : Memory
  acc : Store 32
  fmem : Memory
  kmem : Memory
  v : Store 32
deriving DecidableEq, Repr

/-- One thing the outside world does between two commands: the host presents a command (30_encoding.md R60), or the
platform resets CORE (70_reset_and_hazards.md R180). -/
inductive HostInput where
  | command (c : Command)
  | reset (contents : Contents)
deriving DecidableEq, Repr

/-- The state of CORE (10_state.md R10 to R22) and, in the last two fields, its two ports (30_encoding.md R60). -/
structure State where
  /-- `CTRL.STRICT`, bit 0 of CSR 0; bits 31:1 read 0 and ignore writes (10_state.md R20). -/
  strict : Bool
  /-- `STATUS`, CSR 1 (10_state.md R21). -/
  status : Status
  /-- `TA_SHAPE`, CSR 2 (10_state.md R14, R22). -/
  taShape : Shape
  /-- `TB_SHAPE`, CSR 3 (10_state.md R14, R22). -/
  tbShape : Shape
  /-- `ACC_SHAPE`, CSR 4 (10_state.md R14, R22). -/
  accShape : Shape
  /-- `F_SHAPE`, CSR 5: the Pipeline's M and N (10_state.md R17, R22). -/
  fShape : Shape
  /-- `K_SHAPE`, CSR 6 (10_state.md R17, R22). -/
  kShape : Shape
  /-- `V_LEN.LEN`, bits 7:0 of CSR 7; bits 31:8 read 0 (10_state.md R18, R22). -/
  vLen : BitVec 8
  /-- The tile register TA, element `TA[r][c]` at index 64*r + c (10_state.md R11; 20_memory.md R41). -/
  ta : Memory
  /-- The tile register TB, element `TB[r][c]` at index 64*r + c (10_state.md R12; 20_memory.md R41). -/
  tb : Memory
  /-- The accumulator tile, element `ACC[r][n]` at index 16*r + n (10_state.md R13; 20_memory.md R41). -/
  acc : Store 32
  /-- The buffer F, flat (10_state.md R17). -/
  fmem : Memory
  /-- The buffer K, flat (10_state.md R17). -/
  kmem : Memory
  /-- The result vector V (10_state.md R18). -/
  v : Store 32
  /-- MODEL's own field (notes/assumptions/3.md): what the outside world has still to present, in order. -/
  pending : List HostInput
  /-- The responses given since reset, in order (70_reset_and_hazards.md R193; notes/assumptions/4.md). -/
  responses : List Response
deriving DecidableEq, Repr

/-- The reasons a step could stop with a fault. It has NO constructor: an error is a status code in the response, a
command once taken always completes, and CORE is ready for the next one (60_exceptions.md R150, R154, R157;
notes/assumptions/10.md). Nobody raises a fault. Safe. -/
inductive Fault where
deriving DecidableEq, Repr

/-- The reasons a step could refuse. -/
inductive Refusal where
  /-- Raised by `exec` for an instruction that has no meaning yet. Safe: the model stops where the hardware goes on. No
  arm raises it: every instruction has its meaning. -/
  | notModelled (mnemonic : String)
deriving DecidableEq, Repr

/-- CORE right after reset (10_state.md R27; 70_reset_and_hazards.md R180): `STRICT` is 1, `STATUS`, the five shape
registers and `V_LEN` are 0. The data storages are unspecified there; their content here, all elements 0, is a DESIGN
CHOICE, unsafe, and no statement rests on it (notes/assumptions/1.md). Nothing is presented yet and no response has
been given (70_reset_and_hazards.md R182, R193). -/
def State.reset : State :=
  { strict := true
    status := { last := .ok, smSeen := false, dtlSeen := false, oorSeen := false, illSeen := false }
    taShape := { rows := 0, cols := 0 }
    tbShape := { rows := 0, cols := 0 }
    accShape := { rows := 0, cols := 0 }
    fShape := { rows := 0, cols := 0 }
    kShape := { rows := 0, cols := 0 }
    vLen := 0
    ta := []
    tb := []
    acc := []
    fmem := []
    kmem := []
    v := []
    pending := []
    responses := [] }

end Sys2Proof.Machine
end

