-- ==== Sys2Proof/Machine/Flags.lean ====
section
/-! DEFINITION. The flag-like state of CORE: how `STATUS` is written by every command and laid out when it is read
(10_state.md R21, R24; 60_exceptions.md R150). There is no carry, overflow, zero or sign flag. -/

namespace Sys2Proof.Machine

/-- The 3-bit number of a status code (60_exceptions.md R150). -/
def codeBits : StatusCode → BitVec 3
  | .ok => 0
  | .shapeMismatch => 1
  | .dimensionTooLarge => 2
  | .outOfRange => 3
  | .illegalCommand => 4

/-- `STATUS` after a command that completes with `code`: `LAST` takes the code, and a code c that is not 0 sets bit
3 + c (10_state.md R21). The `_SEEN` bits are sticky. -/
def recordStatus (code : StatusCode) (st : Status) : Status :=
  match code with
  | .ok => { st with last := .ok }
  | .shapeMismatch => { st with last := .shapeMismatch, smSeen := true }
  | .dimensionTooLarge => { st with last := .dimensionTooLarge, dtlSeen := true }
  | .outOfRange => { st with last := .outOfRange, oorSeen := true }
  | .illegalCommand => { st with last := .illegalCommand, illSeen := true }

/-- `STATUS` as a 32-bit register: `LAST` in bits 2:0, bit 3 zero, `SM_SEEN`, `DTL_SEEN`, `OOR_SEEN`, `ILL_SEEN` in
bits 4 to 7, zeros above (10_state.md R21). -/
def statusWord (st : Status) : Word :=
  0#24 ++ BitVec.ofBool st.illSeen ++ BitVec.ofBool st.oorSeen ++ BitVec.ofBool st.dtlSeen ++ BitVec.ofBool st.smSeen
    ++ 0#1 ++ codeBits st.last

end Sys2Proof.Machine
end

