-- ==== Sys2Proof/Machine/Ops.lean ====
section
/-! DEFINITION. The named operations over the state: reading and writing the data storages, giving a response, raising an
error (the whole of CORE's exception entry, 60_exceptions.md R156; there is no return from it, R157), and the reset
event (70_reset_and_hazards.md R180). -/

namespace Sys2Proof.Machine

/-- The element at an index; an index that is not listed holds 0. -/
def Store.read {w : Nat} : Store w → Nat → BitVec w
  | [], _ => 0
  | (b, x) :: rest, a => if a = b then x else Store.read rest a

/-- Put a pair into a rising list, in place of a pair at the same index. -/
def Store.insert {w : Nat} : Store w → Nat → BitVec w → Store w
  | [], a, v => [(a, v)]
  | (b, x) :: rest, a, v =>
    if a < b then (a, v) :: (b, x) :: rest
    else if a = b then (a, v) :: rest
    else (b, x) :: Store.insert rest a v

/-- Take every pair at an index out of a list. -/
def Store.erase {w : Nat} (m : Store w) (a : Nat) : Store w :=
  m.filter (fun p => p.1 != a)

/-- Write one element, keeping the canonical form: the element 0 is not listed. -/
def Store.write {w : Nat} (m : Store w) (a : Nat) (v : BitVec w) : Store w :=
  if v = 0 then Store.erase m a else Store.insert m a v

/-- The storage whose elements from index `start` on are those of the list, and 0 after them. -/
def Store.ofListFrom {w : Nat} (start : Nat) : List (BitVec w) → Store w
  | [] => []
  | x :: rest =>
    if x = 0 then Store.ofListFrom (start + 1) rest else (start, x) :: Store.ofListFrom (start + 1) rest

/-- The storage whose elements from index 0 on are those of the list, and 0 after them. -/
def Store.ofList {w : Nat} (xs : List (BitVec w)) : Store w :=
  Store.ofListFrom 0 xs

/-- The storage of `size` elements whose element at index i is `f i`. -/
def Store.tabulate {w : Nat} (size : Nat) (f : Nat → BitVec w) : Store w :=
  Store.ofList ((List.range size).map f)

/-- `TA[r][c]` (10_state.md R11). It does not depend on `TA_SHAPE` (R15). -/
def State.taAt (s : State) (r c : Nat) : Byte := Store.read s.ta (tileIndex r c)

/-- `TB[r][c]` (10_state.md R12). It does not depend on `TB_SHAPE` (R15). -/
def State.tbAt (s : State) (r c : Nat) : Byte := Store.read s.tb (tileIndex r c)

/-- `ACC[r][n]` (10_state.md R13). It does not depend on `ACC_SHAPE` (R15). -/
def State.accAt (s : State) (r n : Nat) : Word := Store.read s.acc (accIndex r n)

/-- `V[j]` (10_state.md R18). It does not depend on `V_LEN` (42_access.md R132). -/
def State.vAt (s : State) (j : Nat) : Word := Store.read s.v j

/-- `F[r][c] = FMEM[r * F_SHAPE.COLS + c]` (10_state.md R17). -/
def State.fAt (s : State) (r c : Nat) : Byte := Store.read s.fmem (rowMajor s.fShape.cols.toNat r c)

/-- `K[r][c] = KMEM[r * K_SHAPE.COLS + c]` (10_state.md R17). -/
def State.kAt (s : State) (r c : Nat) : Byte := Store.read s.kmem (rowMajor s.kShape.cols.toNat r c)

/-- Complete a command: `STATUS` records the code, and the response carries the code and the read data
(10_state.md R21; 30_encoding.md R60). -/
def respond (code : StatusCode) (rdata : Word) (s : State) : State :=
  { s with
    status := recordStatus code s.status
    responses := s.responses ++ [{ status := code, rdata := rdata }] }

/-- Raise an error: nothing but `STATUS` changes, and the response carries the code and read data 0
(60_exceptions.md R156). This is all the exception entry CORE has. -/
def raise (code : StatusCode) (s : State) : State :=
  respond code 0 s

/-- The operation runs when its pre-flight check answers OK; otherwise the check's code is raised
(60_exceptions.md R152). -/
def preflight (check : StatusCode) (effect : State) : Except StatusCode State :=
  if check = .ok then .ok effect else .error check

/-- The end of every command that returns no data: status 0 and read data 0 after its effect, or the error raised in the
state before it (30_encoding.md R60; 60_exceptions.md R156). -/
def finish (result : Except StatusCode State) (s : State) : Host.Outcome State Fault Refusal :=
  match result with
  | .ok t => .next (respond .ok 0 t)
  | .error code => .next (raise code s)

/-- The data storages take the contents that a reset leaves, each within its size (20_memory.md R41). -/
def loadContents (contents : Contents) (s : State) : State :=
  { s with
    ta := Store.tabulate Config.tileSize (Store.read contents.ta)
    tb := Store.tabulate Config.tileSize (Store.read contents.tb)
    acc := Store.tabulate Config.accSize (Store.read contents.acc)
    fmem := Store.tabulate Config.bufferSize (Store.read contents.fmem)
    kmem := Store.tabulate Config.bufferSize (Store.read contents.kmem)
    v := Store.tabulate Config.vectorSize (Store.read contents.v) }

/-- The reset event (70_reset_and_hazards.md R180): the registers take their reset values, the data storages hold
whatever the event leaves in them, a new run begins with no response given (R193), and what is still to be presented
stays. -/
def afterReset (contents : Contents) (rest : List HostInput) : State :=
  { loadContents contents State.reset with pending := rest }

end Sys2Proof.Machine
end

