-- ==== Sys2Proof/Machine/Access.lean ====
section
/-! DEFINITION. Host data access and CSR access: the commands `EWR` and `ERD` (42_access.md R130 to R139). -/

namespace Sys2Proof.Machine

/-- `narrow8(value)`: a value in [-128, 127] is the int8 of the same mathematical value. Any other raises `OutOfRange`
with `STRICT` = 1, and is a free value with `STRICT` = 0 (42_access.md R133; 93_implementation_defined.md U1). -/
def narrow8 (strict : Bool) (value : Word) : Except StatusCode Byte :=
  if -128 ≤ value.toInt ∧ value.toInt ≤ 127 then .ok (BitVec.ofInt 8 value.toInt)
  else if strict then .error .outOfRange
  else .ok (Config.narrowNonstrict value)

/-- The shape fields of a data operand: rows in bits 7:0, columns in bits 15:8, the rest ignored
(42_access.md R136, R138). -/
def shapeOfWord (value : Word) : Shape :=
  { rows := value.extractLsb' 0 8, cols := value.extractLsb' 8 8 }

/-- The shape written to a tile shape register, refused beyond the physical capacity (42_access.md R136). -/
def tileShapeOfWord (maxCols : Nat) (value : Word) : Except StatusCode Shape :=
  if (shapeOfWord value).rows.toNat > Config.tileRows ∨ (shapeOfWord value).cols.toNat > maxCols then
    .error .dimensionTooLarge
  else .ok (shapeOfWord value)

/-- A shape register as a 32-bit word: `ROWS` in bits 7:0, `COLS` in bits 15:8, zeros above (42_access.md R137). -/
def wordOfShape (shape : Shape) : Word :=
  0#16 ++ shape.cols ++ shape.rows

/-- `csr_write(idx, value)` (42_access.md R135, R136, R138). -/
def csrWrite (s : State) (r : Csr) (value : Word) : Except StatusCode State :=
  match r with
  | .ctrl => .ok { s with strict := value.getLsbD 0 }
  | .status => .error .illegalCommand
  | .taShape => (tileShapeOfWord Config.tileByteCols value).map (fun shape => { s with taShape := shape })
  | .tbShape => (tileShapeOfWord Config.tileByteCols value).map (fun shape => { s with tbShape := shape })
  | .accShape => (tileShapeOfWord Config.accCols value).map (fun shape => { s with accShape := shape })
  | .fShape => .ok { s with fShape := shapeOfWord value }
  | .kShape => .ok { s with kShape := shapeOfWord value }
  | .vLen => .error .illegalCommand

/-- `csr_read(idx)` (42_access.md R137). -/
def csrRead (s : State) : Csr → Word
  | .ctrl => (BitVec.ofBool s.strict).setWidth 32
  | .status => statusWord s.status
  | .taShape => wordOfShape s.taShape
  | .tbShape => wordOfShape s.tbShape
  | .accShape => wordOfShape s.accShape
  | .fShape => wordOfShape s.fShape
  | .kShape => wordOfShape s.kShape
  | .vLen => s.vLen.setWidth 32

/-- The state after one element is written, or the error that its target raises (42_access.md R131, R133, R134). -/
def writeElement (s : State) (e : Element) (value : Word) : Except StatusCode State :=
  match e with
  | .ta i => (narrow8 s.strict value).map (fun b => { s with ta := Store.write s.ta i b })
  | .tb i => (narrow8 s.strict value).map (fun b => { s with tb := Store.write s.tb i b })
  | .acc i => .ok { s with acc := Store.write s.acc i value }
  | .f i => (narrow8 s.strict value).map (fun b => { s with fmem := Store.write s.fmem i b })
  | .k i => (narrow8 s.strict value).map (fun b => { s with kmem := Store.write s.kmem i b })
  | .v _ => .error .illegalCommand
  | .csr r => csrWrite s r value

/-- The value one element reads as: int8 elements sign-extended (42_access.md R132). -/
def readElement (s : State) (e : Element) : Word :=
  match e with
  | .ta i => (Store.read s.ta i).signExtend 32
  | .tb i => (Store.read s.tb i).signExtend 32
  | .acc i => Store.read s.acc i
  | .f i => (Store.read s.fmem i).signExtend 32
  | .k i => (Store.read s.kmem i).signExtend 32
  | .v i => Store.read s.v i
  | .csr r => csrRead s r

/-- `EWR sp, idx, value` (42_access.md R131): illegal operands raise `IllegalCommand` before any other check. -/
def execEwr (sp : BitVec 4) (idx : BitVec 12) (value : Word) (s : State) : Host.Outcome State Fault Refusal :=
  match element sp idx with
  | none => .next (raise .illegalCommand s)
  | some e => finish (writeElement s e value) s

/-- `ERD sp, idx` (42_access.md R132): the value is taken before `STATUS` is written (10_state.md R21). -/
def execErd (sp : BitVec 4) (idx : BitVec 12) (s : State) : Host.Outcome State Fault Refusal :=
  match element sp idx with
  | none => .next (raise .illegalCommand s)
  | some e => .next (respond .ok (readElement s e) s)

end Sys2Proof.Machine
end

