-- ==== Sys2Proof/Machine/Engine.lean ====
section
/-! DEFINITION. The Tile-Multiply-Accumulate Engine: `dpbd`, `tmac_check`, `tmac`, and the commands `TZERO` and `TMAC`
(40_engine.md R80 to R90). -/

namespace Sys2Proof.Machine

/-- The unique int32 congruent to an integer modulo 2^32 (00_scope.md R9). -/
def wrap32 (x : Int) : Word := BitVec.ofInt 32 x

/-- The four int8 lanes of one dword of an operand tile (20_memory.md R43). -/
structure Lanes where
  byte0 : Byte
  byte1 : Byte
  byte2 : Byte
  byte3 : Byte
deriving DecidableEq, Repr

/-- `dpbd(c, x, y)`: the four products of equal lanes, each lane sign-extended, added to `c` modulo 2^32
(40_engine.md R80, R81). -/
def dpbd (c : Word) (x y : Lanes) : Word :=
  wrap32 (c.toInt + x.byte0.toInt * y.byte0.toInt + x.byte1.toInt * y.byte1.toInt + x.byte2.toInt * y.byte2.toInt
    + x.byte3.toInt * y.byte3.toInt)

/-- `TA.row[m].dword[k]` (10_state.md R11). -/
def taDword (s : State) (m k : Nat) : Lanes :=
  { byte0 := s.taAt m (laneColumn k 0), byte1 := s.taAt m (laneColumn k 1)
    byte2 := s.taAt m (laneColumn k 2), byte3 := s.taAt m (laneColumn k 3) }

/-- `TB.row[k].dword[n]` (10_state.md R12). -/
def tbDword (s : State) (k n : Nat) : Lanes :=
  { byte0 := s.tbAt k (laneColumn n 0), byte1 := s.tbAt k (laneColumn n 1)
    byte2 := s.tbAt k (laneColumn n 2), byte3 := s.tbAt k (laneColumn n 3) }

/-- `tmac_check()`, on the three tile shape registers alone (40_engine.md R82). -/
def tmacCheck (s : State) : StatusCode :=
  if s.taShape.cols.toNat % 4 ≠ 0 then .shapeMismatch
  else if s.tbShape.rows.toNat ≠ s.taShape.cols.toNat / 4 then .shapeMismatch
  else if s.tbShape.cols.toNat % 4 ≠ 0 then .shapeMismatch
  else if s.accShape.cols.toNat ≠ s.tbShape.cols.toNat / 4 then .shapeMismatch
  else .ok

/-- Step 1a: the working accumulator row, a copy of all 16 dwords of row `m` (40_engine.md R83). -/
def workingRow (s : State) (m : Nat) : List Word :=
  (List.range Config.accCols).map (fun n => s.accAt m n)

/-- Step 1b for one `k` and one `n`: `w[n]` takes `dpbd` of its current value (40_engine.md R83). -/
def tmacUpdate (s : State) (m k : Nat) (w : List Word) (n : Nat) : List Word :=
  w.set n (dpbd (w.getD n 0) (taDword s m k) (tbDword s k n))

/-- Step 1b for one `k`: n = 0 .. C-1 (40_engine.md R83). -/
def tmacPass (s : State) (m : Nat) (w : List Word) (k : Nat) : List Word :=
  (List.range s.accShape.cols.toNat).foldl (tmacUpdate s m k) w

/-- Steps 1a and 1b for row `m`: the completed working row (40_engine.md R83). -/
def tmacRow (s : State) (m : Nat) : List Word :=
  (List.range (s.taShape.cols.toNat / 4)).foldl (tmacPass s m) (workingRow s m)

/-- Row `m` of ACC after `tmac()`: the completed working row below `ACC_SHAPE.ROWS` (step 1c), all zero at and above it
(step 2, the row-zeroing of 40_engine.md R87). -/
def tmacResultRow (s : State) (m : Nat) : List Word :=
  if m < s.accShape.rows.toNat then tmacRow s m else List.replicate Config.accCols 0

/-- `tmac()`, the Engine algorithm (40_engine.md R83). A row depends on no other row of ACC, so each is worked out from
the state before the command (R89; notes/assumptions/12.md). -/
def tmac (s : State) : State :=
  { s with acc := Store.ofList ((List.range Config.tileRows).flatMap (tmacResultRow s)) }

/-- Every dword of ACC becomes 0 (40_engine.md R84): the storage that lists nothing. -/
def zeroAcc (s : State) : State :=
  { s with acc := [] }

/-- `TZERO` (40_engine.md R84). -/
def execTzero (s : State) : Host.Outcome State Fault Refusal :=
  finish (.ok (zeroAcc s)) s

/-- `TMAC` (40_engine.md R85). -/
def execTmac (s : State) : Host.Outcome State Fault Refusal :=
  finish (preflight (tmacCheck s) (tmac s)) s

end Sys2Proof.Machine
end

