-- ==== Sys2Proof/Machine/Pipeline.lean ====
section
/-! DEFINITION. The Partition/Pad/Diagonal-Extract Pipeline: `pipe_check`, the pure functions of its five steps, and the
commands `PLDA`, `PLDB`, `PDIAG` and `HCS` (41_pipeline.md R100 to R120). -/

namespace Sys2Proof.Machine

/-- A matrix of int8 elements as the function from row and column to element; its extent stands in each function's rule. -/
abbrev Matrix8 := Nat → Nat → Byte

/-- `transpose(X)[c][r] = X[r][c]` (41_pipeline.md R104). -/
def transpose (x : Matrix8) : Matrix8 := fun c r => x r c

/-- `slice_rows(X, i, Q)[r][c] = X[Q*i + r][c]` (41_pipeline.md R105). -/
def sliceRows (x : Matrix8) (i q : Nat) : Matrix8 := fun r c => x (q * i + r) c

/-- `slice_cols(X, i, Q)[r][c] = X[r][Q*i + c]` (41_pipeline.md R106). -/
def sliceCols (x : Matrix8) (i q : Nat) : Matrix8 := fun r c => x r (q * i + c)

/-- `pad_a(A)` of a Q×M matrix: A in the leading Q rows and M columns, 0 elsewhere (41_pipeline.md R107). -/
def padA (q m : Nat) (a : Matrix8) : Matrix8 := fun r c => if r < q ∧ c < m then a r c else 0

/-- `pad_b(B)` of an M×Q matrix: B in the leading M rows and Q columns, 0 elsewhere (41_pipeline.md R108). -/
def padB (q m : Nat) (b : Matrix8) : Matrix8 := fun j n => if j < m ∧ n < q then b j n else 0

/-- `to_tile_b(B)[k][4*n + e] = B[4*k + e][n]` (41_pipeline.md R109). -/
def toTileB (b : Matrix8) : Matrix8 := fun k c => b (4 * k + c % 4) (c / 4)

/-- `reshape_rm(X, R', C')` of a matrix with `cols` columns, seen with `newCols` columns (20_memory.md R47). -/
def reshapeRm (x : Matrix8) (cols newCols : Nat) : Matrix8 :=
  fun r c => x ((r * newCols + c) / cols) ((r * newCols + c) % cols)

/-- The 16×64 contents of an operand tile (20_memory.md R41). -/
def tileOf (x : Matrix8) : Memory :=
  Store.tabulate Config.tileSize (fun i => x (i / 64) (i % 64))

/-- `M = F_SHAPE.ROWS` (41_pipeline.md, introduction). -/
def State.pipeM (s : State) : Nat := s.fShape.rows.toNat

/-- `N = F_SHAPE.COLS` (41_pipeline.md, introduction). -/
def State.pipeN (s : State) : Nat := s.fShape.cols.toNat

/-- `Q = N div 4` (41_pipeline.md, introduction). -/
def State.pipeQ (s : State) : Nat := s.pipeN / Config.partitions

/-- `pipe_check()`, on `F_SHAPE` and `K_SHAPE` alone, its three tests in order (41_pipeline.md R103; 60_exceptions.md
R153). -/
def pipeCheck (s : State) : StatusCode :=
  if s.fShape.rows ≠ s.kShape.rows ∨ s.fShape.cols ≠ s.kShape.cols then .shapeMismatch
  else if s.pipeM % 4 ≠ 0 ∨ s.pipeN % 4 ≠ 0 then .shapeMismatch
  else if s.pipeN / 4 > Config.tileRows ∨ s.pipeM > Config.maxRows then .dimensionTooLarge
  else .ok

/-- The operation of `PLDA i`: TA takes `pad_a(slice_rows(transpose(F), i, Q))`, and its shape the full capacity
(41_pipeline.md R112). -/
def loadLeft (i : Nat) (s : State) : State :=
  { s with
    ta := tileOf (padA s.pipeQ s.pipeM (sliceRows (transpose s.fAt) i s.pipeQ))
    taShape := { rows := 16, cols := 64 } }

/-- The operation of `PLDB i`: TB takes `to_tile_b(pad_b(slice_cols(K, i, Q)))`, and its shape the full capacity
(41_pipeline.md R113). -/
def loadRight (i : Nat) (s : State) : State :=
  { s with
    tb := tileOf (toTileB (padB s.pipeQ s.pipeM (sliceCols s.kAt i s.pipeQ)))
    tbShape := { rows := 16, cols := 64 } }

/-- The operation of `PDIAG i`: `V[Q*i + k] <- ACC[k][k]` for k = 0 .. Q-1 in order, then `V_LEN <- N`
(41_pipeline.md R110, R114). -/
def extractDiag (i : Nat) (s : State) : State :=
  { s with
    v := (List.range s.pipeQ).foldl (fun v k => Store.write v (s.pipeQ * i + k) (s.accAt k k)) s.v
    vLen := s.fShape.cols }

/-- One pair of `HCS`: `PLDA i`, `PLDB i`, `TZERO`, `TMAC`, `PDIAG i`, the operation part of each (41_pipeline.md R116). -/
def pairStep (s : State) (i : Nat) : State :=
  extractDiag i (tmac (zeroAcc (loadRight i (loadLeft i s))))

/-- The operation of `HCS`: `ACC_SHAPE <- (16, 16)`, then the four pairs in order (41_pipeline.md R116). -/
def hadamardColumnSum (s : State) : State :=
  (List.range Config.partitions).foldl pairStep { s with accShape := { rows := 16, cols := 16 } }

/-- `PLDA i` (41_pipeline.md R112). -/
def execPlda (i : BitVec 2) (s : State) : Host.Outcome State Fault Refusal :=
  finish (preflight (pipeCheck s) (loadLeft i.toNat s)) s

/-- `PLDB i` (41_pipeline.md R113). -/
def execPldb (i : BitVec 2) (s : State) : Host.Outcome State Fault Refusal :=
  finish (preflight (pipeCheck s) (loadRight i.toNat s)) s

/-- `PDIAG i` (41_pipeline.md R114). -/
def execPdiag (i : BitVec 2) (s : State) : Host.Outcome State Fault Refusal :=
  finish (preflight (pipeCheck s) (extractDiag i.toNat s)) s

/-- `HCS` (41_pipeline.md R116). -/
def execHcs (s : State) : Host.Outcome State Fault Refusal :=
  finish (preflight (pipeCheck s) (hadamardColumnSum s)) s

end Sys2Proof.Machine
end

