-- ==== Sys2Proof/Machine/Dispatch.lean ====
section
/-! DEFINITION. One arm for each command of the opcode map (30_encoding.md R65). -/

namespace Sys2Proof.Machine

def exec (i : Instr) (s : State) : Host.Outcome State Fault Refusal :=
  match i with
  | .ewr sp idx value => Sys2Proof.Machine.execEwr sp idx value s
  | .erd sp idx => Sys2Proof.Machine.execErd sp idx s
  | .tzero => Sys2Proof.Machine.execTzero s
  | .tmac => Sys2Proof.Machine.execTmac s
  | .plda p => Sys2Proof.Machine.execPlda p s
  | .pldb p => Sys2Proof.Machine.execPldb p s
  | .pdiag p => Sys2Proof.Machine.execPdiag p s
  | .hcs => Sys2Proof.Machine.execHcs s

end Sys2Proof.Machine
end

