-- ==== Sys2Proof/Machine/Command.lean ====
section
/-! DEFINITION. One command from its word to its response (30_encoding.md R60, R71). -/

namespace Sys2Proof.Machine

/-- Execute one command completely: decode it, raise `IllegalCommand` if its word selects no row of the opcode map
(30_encoding.md R66 (a), (b)), run its instruction otherwise. -/
def execCommand (c : Command) (s : State) : Host.Outcome State Fault Refusal :=
  match decode c with
  | .ok i => exec i s
  | .error _ => .next (raise .illegalCommand s)

end Sys2Proof.Machine
end

