-- ==== Sys2Proof/Machine/Step.lean ====
section
/-! DEFINITION. One step of CORE: it takes the next thing the outside world presents (20_memory.md R50; 30_encoding.md
R60), and waits when there is none. -/

namespace Sys2Proof.Machine

/-- One step. A command is taken from the port and executed; a reset event resets CORE between commands
(70_reset_and_hazards.md R180, R181); with nothing presented CORE is idle and keeps all state (60_exceptions.md R165;
70_reset_and_hazards.md R182; notes/assumptions/5.md). -/
def step (s : State) : Host.Outcome State Fault Refusal :=
  match s.pending with
  | [] => .next s
  | .command c :: rest => execCommand c { s with pending := rest }
  | .reset contents :: rest => .next (afterReset contents rest)

/-- The state whose very next step executes the command with the bits `w` (notes/assumptions/7.md): the host presents
that command before all else. -/
def State.withFetchWord (s : State) (nbits w : Nat) : State :=
  { s with pending := .command (commandOfBits nbits w) :: s.pending }

end Sys2Proof.Machine
end

