-- ==== Sys2Proof/Safety.lean ====
section
/-! DEFINITION. What claims about CORE are stated in: the invariant of its registers and storages, the invariant of its
status log, and the end of a command in words. -/

namespace Sys2Proof.Machine

/-- The registers and storages hold only what they can hold. The spec says: the tile shapes are within the physical
capacity (10_state.md R14), `V_LEN` is at most 64 (R18), and each storage has its size (R11 to R13, R17, R18;
20_memory.md R41). The model's choice (notes/assumptions/8.md) is how a storage is written down, which the last six
clauses keep with its size: rising indices, each below the size, and no listed 0. -/
structure State.Inv (s : State) : Prop where
  taRows : s.taShape.rows.toNat ≤ 16
  taCols : s.taShape.cols.toNat ≤ 64
  tbRows : s.tbShape.rows.toNat ≤ 16
  tbCols : s.tbShape.cols.toNat ≤ 64
  accRows : s.accShape.rows.toNat ≤ 16
  accCols : s.accShape.cols.toNat ≤ 16
  vLen : s.vLen.toNat ≤ 64
  ta : Memory.wf 1024 s.ta
  tb : Memory.wf 1024 s.tb
  acc : Store.wf 256 s.acc
  fmem : Memory.wf 4096 s.fmem
  kmem : Memory.wf 4096 s.kmem
  v : Store.wf 64 s.v

/-- Some command since reset completed with the code (10_state.md R21). -/
def State.answered (s : State) (code : StatusCode) : Bool :=
  s.responses.any (fun r => r.status == code)

/-- `STATUS` tells what the responses since reset were (10_state.md R21): `LAST` is the code of the last of them, OK when
there is none, and each `_SEEN` bit is set when its code occurs among them and not otherwise. -/
structure State.StatusTells (s : State) : Prop where
  last : s.status.last = ((s.responses.getLast?).map Response.status).getD .ok
  smSeen : s.status.smSeen = s.answered .shapeMismatch
  dtlSeen : s.status.dtlSeen = s.answered .dimensionTooLarge
  oorSeen : s.status.oorSeen = s.answered .outOfRange
  illSeen : s.status.illSeen = s.answered .illegalCommand

/-- The state after a command that succeeds and returns `rdata`, when its effect has made `t` of the state before it. Here
and in the four states after an error, the list of responses is the model's own record (notes/assumptions/4.md). -/
def State.thenOk (t : State) (rdata : Word) : State :=
  { t with
    status := { t.status with last := .ok }
    responses := t.responses ++ [{ status := .ok, rdata := rdata }] }

/-- The state after a command that completes with `IllegalCommand` (30_encoding.md R66; 60_exceptions.md R156). -/
def State.thenIllegal (s : State) : State :=
  { s with
    status := { s.status with last := .illegalCommand, illSeen := true }
    responses := s.responses ++ [{ status := .illegalCommand, rdata := 0 }] }

/-- The state after a command that completes with `ShapeMismatch` (60_exceptions.md R156). -/
def State.thenShapeMismatch (s : State) : State :=
  { s with
    status := { s.status with last := .shapeMismatch, smSeen := true }
    responses := s.responses ++ [{ status := .shapeMismatch, rdata := 0 }] }

/-- The state after a command that completes with `DimensionTooLarge` (60_exceptions.md R156). -/
def State.thenDimensionTooLarge (s : State) : State :=
  { s with
    status := { s.status with last := .dimensionTooLarge, dtlSeen := true }
    responses := s.responses ++ [{ status := .dimensionTooLarge, rdata := 0 }] }

/-- The state after a command that completes with `OutOfRange` (60_exceptions.md R156). -/
def State.thenOutOfRange (s : State) : State :=
  { s with
    status := { s.status with last := .outOfRange, oorSeen := true }
    responses := s.responses ++ [{ status := .outOfRange, rdata := 0 }] }

/-- `F_SHAPE` and `K_SHAPE` are a shape the Pipeline accepts (41_pipeline.md R103): equal, M and N in 0, 4, ..., 64. -/
abbrev State.PipeShapesFit (s : State) : Prop :=
  s.fShape = s.kShape ∧ s.fShape.rows.toNat % 4 = 0 ∧ s.fShape.cols.toNat % 4 = 0 ∧ s.fShape.rows.toNat ≤ 64 ∧
    s.fShape.cols.toNat ≤ 64

/-- The tile shapes are ones the Engine accepts (40_engine.md R82). -/
abbrev State.TileShapesFit (s : State) : Prop :=
  s.taShape.cols.toNat % 4 = 0 ∧ s.tbShape.rows.toNat = s.taShape.cols.toNat / 4 ∧ s.tbShape.cols.toNat % 4 = 0 ∧
    s.accShape.cols.toNat = s.tbShape.cols.toNat / 4

/-- `w[hi:lo]`: the unsigned integer made of bits `hi` down to `lo` of a word (00_scope.md R9). -/
def bits (w : Word) (hi lo : Nat) : Nat := w.toNat / 2 ^ lo % 2 ^ (hi - lo + 1)

/-- The five tests of 30_encoding.md R66 on a command word, in their order, as its text and R41's sizes give them. -/
def IllegalWord (w : Word) : Prop :=
  (bits w 31 28 = 0 ∨ 9 ≤ bits w 31 28) ∨
    ((bits w 31 28 = 1 ∨ bits w 31 28 = 2) ∧ bits w 23 12 ≠ 0 ∨
      (bits w 31 28 = 5 ∨ bits w 31 28 = 6 ∨ bits w 31 28 = 7) ∧ bits w 27 2 ≠ 0 ∨
      (bits w 31 28 = 3 ∨ bits w 31 28 = 4 ∨ bits w 31 28 = 8) ∧ bits w 27 0 ≠ 0) ∨
    (bits w 31 28 = 1 ∨ bits w 31 28 = 2) ∧ (bits w 27 24 = 0 ∨ 8 ≤ bits w 27 24) ∨
    (bits w 31 28 = 1 ∨ bits w 31 28 = 2) ∧
      ((bits w 27 24 = 1 ∨ bits w 27 24 = 2) ∧ 1024 ≤ bits w 11 0 ∨ bits w 27 24 = 3 ∧ 256 ≤ bits w 11 0 ∨
        (bits w 27 24 = 4 ∨ bits w 27 24 = 5) ∧ 4096 ≤ bits w 11 0 ∨ bits w 27 24 = 6 ∧ 64 ≤ bits w 11 0 ∨
        bits w 27 24 = 7 ∧ 8 ≤ bits w 11 0) ∨
    bits w 31 28 = 1 ∧ (bits w 27 24 = 6 ∨ bits w 27 24 = 7 ∧ (bits w 11 0 = 1 ∨ bits w 11 0 = 7))

/-- A step that takes this command completes it with `IllegalCommand` and changes nothing but `STATUS`. -/
def StepsIllegally (c : Command) : Prop :=
  ∀ (s : State) (rest : List HostInput), s.pending = .command c :: rest →
    step s = .next (State.thenIllegal { s with pending := rest })

/-- The encoding of a format P command: the words with opcode `op` and bits 27:2 zero are the instruction of their bits
1:0, and the other words with that opcode are illegal (30_encoding.md R61, R63, R66). -/
def PartitionFormat (op : Nat) (mk : BitVec 2 → Instr) : Prop :=
  ∀ c : Command, bits c.cmd 31 28 = op →
    (bits c.cmd 27 2 = 0 → decode c = .ok (mk (BitVec.ofNat 2 (bits c.cmd 1 0)))) ∧
      (bits c.cmd 27 2 ≠ 0 → StepsIllegally c)

/-- The encoding of a format Z command: the word with opcode `op` and bits 27:0 zero is the instruction, and the other
words with that opcode are illegal (30_encoding.md R61, R64, R66). -/
def NoOperandFormat (op : Nat) (i : Instr) : Prop :=
  ∀ c : Command, bits c.cmd 31 28 = op →
    (bits c.cmd 27 0 = 0 → decode c = .ok i) ∧ (bits c.cmd 27 0 ≠ 0 → StepsIllegally c)

/-- How the four Pipeline commands answer shapes that `pipe_check` rejects: its code, and nothing changed but `STATUS`
(41_pipeline.md R103, R120). -/
def RejectsMisfitShapes (i : Instr) : Prop :=
  ∀ s : State,
    (s.fShape ≠ s.kShape → exec i s = .next s.thenShapeMismatch) ∧
      (s.fShape = s.kShape → s.fShape.rows.toNat % 4 ≠ 0 ∨ s.fShape.cols.toNat % 4 ≠ 0 →
        exec i s = .next s.thenShapeMismatch) ∧
      (s.fShape = s.kShape → s.fShape.rows.toNat % 4 = 0 → s.fShape.cols.toNat % 4 = 0 →
        s.fShape.cols.toNat / 4 > 16 ∨ s.fShape.rows.toNat > 64 → exec i s = .next s.thenDimensionTooLarge)

/-- How `EWR` writes the int8 space of code `sp`: a value in [-128, 127] is stored; any other raises `OutOfRange` with
`STRICT` = 1, and with `STRICT` = 0 the command succeeds and only the addressed element may change (42_access.md R131,
R133; 93_implementation_defined.md U1). -/
def ByteWriteRule (sp : BitVec 4) (size : Nat) (get : State → Memory) (put : State → Memory → State) : Prop :=
  ∀ (s : State) (idx : BitVec 12) (value : Word), idx.toNat < size →
    (-128 ≤ value.toInt ∧ value.toInt ≤ 127 →
      ∃ m, exec (.ewr sp idx value) s = .next ((put s m).thenOk 0) ∧
        (Store.read m idx.toNat).toInt = value.toInt ∧
        ∀ j, j ≠ idx.toNat → Store.read m j = Store.read (get s) j) ∧
      (¬(-128 ≤ value.toInt ∧ value.toInt ≤ 127) → s.strict = true →
        exec (.ewr sp idx value) s = .next s.thenOutOfRange) ∧
      (¬(-128 ≤ value.toInt ∧ value.toInt ≤ 127) → s.strict = false →
        ∃ m, exec (.ewr sp idx value) s = .next ((put s m).thenOk 0) ∧
          ∀ j, j ≠ idx.toNat → Store.read m j = Store.read (get s) j)

/-- How `EWR` writes the tile shape register of number `number`: a shape within the capacity is taken, any other raises
`DimensionTooLarge` (42_access.md R136). -/
def TileShapeWriteRule (number : BitVec 12) (maxCols : Nat) (put : State → Shape → State) : Prop :=
  ∀ (s : State) (value : Word),
    (bits value 7 0 > 16 ∨ bits value 15 8 > maxCols → exec (.ewr 7 number value) s = .next s.thenDimensionTooLarge) ∧
      (bits value 7 0 ≤ 16 → bits value 15 8 ≤ maxCols →
        exec (.ewr 7 number value) s
          = .next ((put s { rows := BitVec.ofNat 8 (bits value 7 0), cols := BitVec.ofNat 8 (bits value 15 8) }).thenOk 0))

/-- How the assembler's `SHAPE` sets a tile shape register: a shape within the capacity is taken, any other that its two
fields can hold raises `DimensionTooLarge` (30_encoding.md R70; 42_access.md R136). -/
def TileShapeFormRule (reg : Csr) (maxCols : Nat) (put : State → Shape → State) : Prop :=
  ∀ (s : State) (rows cols : Nat), rows < 256 → cols < 256 →
    (rows ≤ 16 → cols ≤ maxCols →
      exec (asmShape reg rows cols) s
        = .next ((put s { rows := BitVec.ofNat 8 rows, cols := BitVec.ofNat 8 cols }).thenOk 0)) ∧
      (16 < rows ∨ maxCols < cols → exec (asmShape reg rows cols) s = .next s.thenDimensionTooLarge)

/-- The number of a status code (60_exceptions.md R150). -/
def statusNumber : StatusCode → Nat
  | .ok => 0
  | .shapeMismatch => 1
  | .dimensionTooLarge => 2
  | .outOfRange => 3
  | .illegalCommand => 4

/-- A word with `ROWS` in bits 7:0, `COLS` in bits 15:8 and zeros above (10_state.md R22). -/
def IsShapeWord (shape : Shape) (w : Word) : Prop :=
  bits w 7 0 = shape.rows.toNat ∧ bits w 15 8 = shape.cols.toNat ∧ bits w 31 16 = 0

/-- A word laid out as `STATUS` (10_state.md R21). -/
def IsStatusWord (st : Status) (w : Word) : Prop :=
  bits w 2 0 = statusNumber st.last ∧ bits w 3 3 = 0 ∧ bits w 4 4 = st.smSeen.toNat ∧ bits w 5 5 = st.dtlSeen.toNat ∧
    bits w 6 6 = st.oorSeen.toNat ∧ bits w 7 7 = st.illSeen.toNat ∧ bits w 31 8 = 0

/-- The 21 commands that 41_pipeline.md R116 says `HCS` is equivalent to, as the host presents them: `ACC_SHAPE` set to
(16, 16), then `PLDA i; PLDB i; TZERO; TMAC; PDIAG i` for i = 0, 1, 2, 3. -/
def stepwiseHcs : List HostInput :=
  (asmShape .accShape 16 16 ::
    [0, 1, 2, 3].flatMap (fun i => [.plda i, .pldb i, .tzero, .tmac, .pdiag i])).map (fun i => .command (encode i))

/-- `SUM_{r<M} F[r][a] * K[r][b]`, the exact integer (41_pipeline.md R100, R117). -/
def State.columnProduct (s : State) (a b : Nat) : Int :=
  ∑ r ∈ Finset.range s.fShape.rows.toNat, (s.fAt r a).toInt * (s.kAt r b).toInt

end Sys2Proof.Machine
end

