-- ==== Sys2Proof/Certificates/Slice0/Obligations.lean ====
section
/-! DEFINITION. The statements about CORE for the provers, in the order of OBLIGATIONS.json. -/

open Sys2Proof Sys2Proof.Machine

/-! ### Encoding and the step -/

/-- Words written out from 30_encoding.md R65 (and R131, R132) decode to the commands they stand for. -/
def Obligations.SpecWordsDecode : Prop :=
  decode { cmd := 0x12000007, wdata := 0xFFFFFF80 } = .ok (.ewr 2 7 0xFFFFFF80) ∧
    decode { cmd := 0x23000001, wdata := 0 } = .ok (.erd 3 1) ∧
    decode { cmd := 0x30000000, wdata := 0 } = .ok .tzero ∧
    decode { cmd := 0x40000000, wdata := 0 } = .ok .tmac ∧
    decode { cmd := 0x50000003, wdata := 0 } = .ok (.plda 3) ∧
    decode { cmd := 0x60000002, wdata := 0 } = .ok (.pldb 2) ∧
    decode { cmd := 0x70000001, wdata := 0 } = .ok (.pdiag 1) ∧
    decode { cmd := 0x80000000, wdata := 0 } = .ok .hcs

/-- A step that takes a command which decodes to `i` is `exec i` with the command gone from the port. -/
def Obligations.StepRunsDecodedCommand : Prop :=
  ∀ (s : State) (c : Command) (rest : List HostInput) (i : Instr),
    s.pending = .command c :: rest → decode c = .ok i → step s = exec i { s with pending := rest }

/-- Decoding an encoded command gives it back, with every operand at every value the fields admit. -/
def Obligations.DecodeEncodeRoundTrip : Prop :=
  ∀ i : Instr, decode (encode i) = .ok i

/-- Encoding a decoded command gives its word back, and for `EWR` its data operand too. -/
def Obligations.EncodeOfDecodedWord : Prop :=
  ∀ (c : Command) (i : Instr), decode c = .ok i →
    (encode i).cmd = c.cmd ∧ ∀ sp idx value, i = .ewr sp idx value → encode i = c

/-- 30_encoding.md R65: a word selects the row of the opcode map whose `match` it has under the row's `mask`, and the
opcodes 0x0 and 0x9 to 0xF select nothing. -/
def Obligations.OpcodeMapSelectsRows : Prop :=
  ∀ c : Command,
    ((∃ sp idx value, decode c = .ok (.ewr sp idx value)) ↔ c.cmd &&& 0xF0FFF000 = 0x10000000) ∧
      ((∃ sp idx, decode c = .ok (.erd sp idx)) ↔ c.cmd &&& 0xF0FFF000 = 0x20000000) ∧
      (decode c = .ok .tzero ↔ c.cmd &&& 0xFFFFFFFF = 0x30000000) ∧
      (decode c = .ok .tmac ↔ c.cmd &&& 0xFFFFFFFF = 0x40000000) ∧
      ((∃ i, decode c = .ok (.plda i)) ↔ c.cmd &&& 0xFFFFFFFC = 0x50000000) ∧
      ((∃ i, decode c = .ok (.pldb i)) ↔ c.cmd &&& 0xFFFFFFFC = 0x60000000) ∧
      ((∃ i, decode c = .ok (.pdiag i)) ↔ c.cmd &&& 0xFFFFFFFC = 0x70000000) ∧
      (decode c = .ok .hcs ↔ c.cmd &&& 0xFFFFFFFF = 0x80000000) ∧
      (bits c.cmd 31 28 = 0 ∨ 9 ≤ bits c.cmd 31 28 → ∀ i, decode c ≠ .ok i)

/-- 30_encoding.md R66: a command any of the five tests holds of completes with status 4, read data 0 and no change of
state other than `STATUS`; the all-zero word is one. -/
def Obligations.IllegalWordsAreRefused : Prop :=
  (∀ c : Command, IllegalWord c.cmd → StepsIllegally c) ∧ bits 0 31 28 = 0 ∧ IllegalWord 0

/-- 30_encoding.md R67: every other word is one of the eight commands with legal fields, and does not complete with
`IllegalCommand`. -/
def Obligations.LegalWordsAreCommands : Prop :=
  ∀ c : Command, ¬IllegalWord c.cmd →
    ∃ i, decode c = .ok i ∧ i.wellFormed = true ∧ ∀ s : State, ∃ t, exec i s = .next t ∧ t.status.last ≠ .illegalCommand

/-- Every command gets exactly one response, its read data is 0 unless it is a successful `ERD`, and the data operand is
ignored by every command but `EWR`. -/
def Obligations.OneResponsePerCommand : Prop :=
  ∀ (s : State) (c : Command) (rest : List HostInput), s.pending = .command c :: rest →
    (∃ t r, step s = .next t ∧ t.pending = rest ∧ t.responses = s.responses ++ [r] ∧
        (r.rdata ≠ 0 → r.status = .ok ∧ bits c.cmd 31 28 = 2)) ∧
      (bits c.cmd 31 28 ≠ 1 →
        ∀ d : Word, step { s with pending := .command { cmd := c.cmd, wdata := d } :: rest } = step s)

/-- Every step answers a next state: no command stops CORE. -/
def Obligations.EveryStepAnswers : Prop :=
  ∀ s : State, ∃ t, step s = .next t

/-- With nothing presented a step keeps all state. The idle step is the model's choice (notes/assumptions/5.md). -/
def Obligations.IdleStepKeepsState : Prop :=
  ∀ s : State, s.pending = [] → step s = .next s

/-! ### Reset and invariants -/

/-- The register values of 10_state.md section 5 at `State.reset`. The contents of the data storages are not stated. -/
def Obligations.ResetRegisterValues : Prop :=
  State.reset.strict = true ∧
    State.reset.status = { last := .ok, smSeen := false, dtlSeen := false, oorSeen := false, illSeen := false } ∧
    State.reset.taShape = { rows := 0, cols := 0 } ∧ State.reset.tbShape = { rows := 0, cols := 0 } ∧
    State.reset.accShape = { rows := 0, cols := 0 } ∧ State.reset.fShape = { rows := 0, cols := 0 } ∧
    State.reset.kShape = { rows := 0, cols := 0 } ∧ State.reset.vLen = 0

/-- The reset event sets every register to its reset value, whatever the state was. That the event brings the contents
of the data storages, that it clears the list of responses, and that what is still presented stays, is the model's
choice (notes/assumptions/2.md, 4.md). -/
def Obligations.ResetEventSetsRegisters : Prop :=
  ∀ (s : State) (contents : Contents) (rest : List HostInput), s.pending = .reset contents :: rest →
    ∃ t, step s = .next t ∧ t.strict = true ∧
      t.status = { last := .ok, smSeen := false, dtlSeen := false, oorSeen := false, illSeen := false } ∧
      t.taShape = { rows := 0, cols := 0 } ∧ t.tbShape = { rows := 0, cols := 0 } ∧
      t.accShape = { rows := 0, cols := 0 } ∧ t.fShape = { rows := 0, cols := 0 } ∧
      t.kShape = { rows := 0, cols := 0 } ∧ t.vLen = 0 ∧
      (∀ j, j < 1024 → Store.read t.ta j = Store.read contents.ta j ∧ Store.read t.tb j = Store.read contents.tb j) ∧
      (∀ j, j < 256 → Store.read t.acc j = Store.read contents.acc j) ∧
      (∀ j, j < 4096 →
        Store.read t.fmem j = Store.read contents.fmem j ∧ Store.read t.kmem j = Store.read contents.kmem j) ∧
      (∀ j, j < 64 → t.vAt j = Store.read contents.v j) ∧ t.responses = [] ∧ t.pending = rest

/-- The registers and storages are in their legal ranges at `State.reset`, and the storages in the canonical form. That
the storages have that form (notes/assumptions/8.md), and what they hold at `State.reset` (notes/assumptions/1.md), is
the model's choice. -/
def Obligations.RegistersInRangeAtReset : Prop :=
  State.reset.Inv

/-- Every step keeps the registers and storages in their legal ranges, and the storages in the canonical form, which is
the model's choice (notes/assumptions/8.md). -/
def Obligations.RegistersStayInRange : Prop :=
  ∀ s t : State, s.Inv → step s = .next t → t.Inv

/-- `STATUS` tells what the responses were at `State.reset`: there were none. -/
def Obligations.StatusTellsAtReset : Prop :=
  State.reset.StatusTells

/-- Every step keeps `STATUS` telling what the responses since reset were. -/
def Obligations.StatusKeepsTelling : Prop :=
  ∀ s t : State, s.StatusTells → step s = .next t → t.StatusTells

/-! ### Status and errors -/

/-- 10_state.md R21: how every command writes `STATUS`, what reading it returns, that it cannot be written, and that
reset clears it. -/
def Obligations.StatusRegisterBehaves : Prop :=
  (∀ (s t : State) (c : Command) (rest : List HostInput), s.pending = .command c :: rest → step s = .next t →
      ∃ r, t.responses = s.responses ++ [r] ∧ t.status.last = r.status ∧
        t.status.smSeen = (s.status.smSeen || r.status == .shapeMismatch) ∧
        t.status.dtlSeen = (s.status.dtlSeen || r.status == .dimensionTooLarge) ∧
        t.status.oorSeen = (s.status.oorSeen || r.status == .outOfRange) ∧
        t.status.illSeen = (s.status.illSeen || r.status == .illegalCommand)) ∧
    (∀ s : State, ∃ w, exec (.erd 7 1) s = .next (s.thenOk w) ∧ IsStatusWord s.status w) ∧
    (∀ (s : State) (value : Word), exec (.ewr 7 1 value) s = .next s.thenIllegal) ∧
    ∀ (s t : State) (contents : Contents) (rest : List HostInput), s.pending = .reset contents :: rest →
      step s = .next t →
      t.status = { last := .ok, smSeen := false, dtlSeen := false, oorSeen := false, illSeen := false }

/-- 60_exceptions.md R156: a command that raises an error, an illegal word among them, changes nothing but `STATUS` (and
is gone from the port), sets `LAST` and the code's `_SEEN` bit, and responds with its code and read data 0. -/
def Obligations.FailingCommandChangesOnlyStatus : Prop :=
  ∀ (s t : State) (c : Command) (rest : List HostInput), s.pending = .command c :: rest → step s = .next t →
    t.status.last ≠ .ok →
    t = { s with
          pending := rest, status := t.status
          responses := s.responses ++ [{ status := t.status.last, rdata := 0 }] } ∧
      t.status.smSeen = (s.status.smSeen || t.status.last == .shapeMismatch) ∧
      t.status.dtlSeen = (s.status.dtlSeen || t.status.last == .dimensionTooLarge) ∧
      t.status.oorSeen = (s.status.oorSeen || t.status.last == .outOfRange) ∧
      t.status.illSeen = (s.status.illSeen || t.status.last == .illegalCommand)

/-- No check depends on the contents of a tile, a buffer or V: the status code of a command is the same in two states
with the same control and shape registers. -/
def Obligations.ChecksIgnoreData : Prop :=
  ∀ (i : Instr) (s u t w : State), s.strict = u.strict → s.taShape = u.taShape → s.tbShape = u.tbShape →
    s.accShape = u.accShape → s.fShape = u.fShape → s.kShape = u.kShape → exec i s = .next t → exec i u = .next w →
    t.status.last = w.status.last

/-- A failed command, repeated unchanged, fails again with the same code. -/
def Obligations.FailedCommandFailsAgain : Prop :=
  ∀ (i : Instr) (s t u : State), exec i s = .next t → t.status.last ≠ .ok → exec i t = .next u →
    u.status.last = t.status.last

/-- Which commands write each piece of state; no other command touches it (10_state.md R11 to R13, R17, R18, R20, R22).
The last clause is about what is still presented, a field of the model's own (notes/assumptions/3.md). -/
def Obligations.WritersOfEachState : Prop :=
  ∀ (i : Instr) (s t : State), exec i s = .next t →
    (t.ta ≠ s.ta → (∃ idx value, i = .ewr 1 idx value) ∨ (∃ p, i = .plda p) ∨ i = .hcs) ∧
      (t.tb ≠ s.tb → (∃ idx value, i = .ewr 2 idx value) ∨ (∃ p, i = .pldb p) ∨ i = .hcs) ∧
      (t.acc ≠ s.acc → (∃ idx value, i = .ewr 3 idx value) ∨ i = .tzero ∨ i = .tmac ∨ i = .hcs) ∧
      (t.fmem ≠ s.fmem → ∃ idx value, i = .ewr 4 idx value) ∧
      (t.kmem ≠ s.kmem → ∃ idx value, i = .ewr 5 idx value) ∧
      (t.v ≠ s.v → (∃ p, i = .pdiag p) ∨ i = .hcs) ∧
      (t.vLen ≠ s.vLen → (∃ p, i = .pdiag p) ∨ i = .hcs) ∧
      (t.strict ≠ s.strict → ∃ value, i = .ewr 7 0 value) ∧
      (t.taShape ≠ s.taShape → (∃ value, i = .ewr 7 2 value) ∨ (∃ p, i = .plda p) ∨ i = .hcs) ∧
      (t.tbShape ≠ s.tbShape → (∃ value, i = .ewr 7 3 value) ∨ (∃ p, i = .pldb p) ∨ i = .hcs) ∧
      (t.accShape ≠ s.accShape → (∃ value, i = .ewr 7 4 value) ∨ i = .hcs) ∧
      (t.fShape ≠ s.fShape → ∃ value, i = .ewr 7 5 value) ∧
      (t.kShape ≠ s.kShape → ∃ value, i = .ewr 7 6 value) ∧ t.pending = s.pending

/-! ### Host data access and CSR access -/

/-- 42_access.md R133: `EWR` to each of the four int8 spaces, and that no other command can raise `OutOfRange`. In the
last case of `ByteWriteRule` the byte stored is a free value (notes/assumptions/6.md): nothing is said of it. -/
def Obligations.ByteSpaceWrites : Prop :=
  ByteWriteRule 1 1024 State.ta (fun s m => { s with ta := m }) ∧
    ByteWriteRule 2 1024 State.tb (fun s m => { s with tb := m }) ∧
    ByteWriteRule 4 4096 State.fmem (fun s m => { s with fmem := m }) ∧
    ByteWriteRule 5 4096 State.kmem (fun s m => { s with kmem := m }) ∧
    ∀ (i : Instr) (s t : State), exec i s = .next t → t.status.last = .outOfRange →
      ∃ sp idx value, i = .ewr sp idx value ∧ (sp = 1 ∨ sp = 2 ∨ sp = 4 ∨ sp = 5) ∧ s.strict = true ∧
        ¬(-128 ≤ value.toInt ∧ value.toInt ≤ 127)

/-- 42_access.md R134: `EWR` to ACC stores the full data operand, whatever it is, and changes no other element. -/
def Obligations.AccumulatorWrites : Prop :=
  ∀ (s : State) (idx : BitVec 12) (value : Word), idx.toNat < 256 →
    ∃ m, exec (.ewr 3 idx value) s = .next (State.thenOk { s with acc := m } 0) ∧ Store.read m idx.toNat = value ∧
      ∀ j, j ≠ idx.toNat → Store.read m j = Store.read s.acc j

/-- 42_access.md R136: `EWR` to the three tile shape registers. -/
def Obligations.TileShapeWrites : Prop :=
  TileShapeWriteRule 2 64 (fun s shape => { s with taShape := shape }) ∧
    TileShapeWriteRule 3 64 (fun s shape => { s with tbShape := shape }) ∧
    TileShapeWriteRule 4 16 (fun s shape => { s with accShape := shape })

/-- 42_access.md R138: `EWR` to `CTRL`, `F_SHAPE` and `K_SHAPE` takes every value and moves no data. -/
def Obligations.UncheckedCsrWrites : Prop :=
  ∀ (s : State) (value : Word),
    exec (.ewr 7 0 value) s = .next (State.thenOk { s with strict := bits value 0 0 == 1 } 0) ∧
      exec (.ewr 7 5 value) s
        = .next (State.thenOk
            { s with fShape := { rows := BitVec.ofNat 8 (bits value 7 0), cols := BitVec.ofNat 8 (bits value 15 8) } }
            0) ∧
      exec (.ewr 7 6 value) s
        = .next (State.thenOk
            { s with kShape := { rows := BitVec.ofNat 8 (bits value 7 0), cols := BitVec.ofNat 8 (bits value 15 8) } }
            0)

/-- 42_access.md R132: what `ERD` returns from the six data spaces, that it changes only `STATUS.LAST`, and where it is
illegal. What the CSRs read as is `Obligations.CsrReads`. -/
def Obligations.ElementReads : Prop :=
  ∀ (s : State) (idx : BitVec 12),
    (idx.toNat < 1024 → ∃ w : Word, exec (.erd 1 idx) s = .next (s.thenOk w) ∧
        w.toInt = (s.taAt (idx.toNat / 64) (idx.toNat % 64)).toInt) ∧
      (idx.toNat < 1024 → ∃ w : Word, exec (.erd 2 idx) s = .next (s.thenOk w) ∧
        w.toInt = (s.tbAt (idx.toNat / 64) (idx.toNat % 64)).toInt) ∧
      (idx.toNat < 256 → exec (.erd 3 idx) s = .next (s.thenOk (s.accAt (idx.toNat / 16) (idx.toNat % 16)))) ∧
      (∃ w : Word, exec (.erd 4 idx) s = .next (s.thenOk w) ∧ w.toInt = (Store.read s.fmem idx.toNat).toInt) ∧
      (∃ w : Word, exec (.erd 5 idx) s = .next (s.thenOk w) ∧ w.toInt = (Store.read s.kmem idx.toNat).toInt) ∧
      (idx.toNat < 64 → exec (.erd 6 idx) s = .next (s.thenOk (s.vAt idx.toNat))) ∧
      (idx.toNat < 8 → ∃ w : Word, exec (.erd 7 idx) s = .next (s.thenOk w)) ∧
      ∀ sp : BitVec 4,
        sp.toNat = 0 ∨ 8 ≤ sp.toNat ∨ (sp.toNat = 1 ∨ sp.toNat = 2) ∧ 1024 ≤ idx.toNat ∨
            sp.toNat = 3 ∧ 256 ≤ idx.toNat ∨ sp.toNat = 6 ∧ 64 ≤ idx.toNat ∨ sp.toNat = 7 ∧ 8 ≤ idx.toNat →
          exec (.erd sp idx) s = .next s.thenIllegal

/-- 42_access.md R137: what each of the eight CSRs reads as. -/
def Obligations.CsrReads : Prop :=
  ∀ s : State,
    (∃ w, exec (.erd 7 0) s = .next (s.thenOk w) ∧ bits w 0 0 = s.strict.toNat ∧ bits w 31 1 = 0) ∧
      (∃ w, exec (.erd 7 1) s = .next (s.thenOk w) ∧ IsStatusWord s.status w) ∧
      (∃ w, exec (.erd 7 2) s = .next (s.thenOk w) ∧ IsShapeWord s.taShape w) ∧
      (∃ w, exec (.erd 7 3) s = .next (s.thenOk w) ∧ IsShapeWord s.tbShape w) ∧
      (∃ w, exec (.erd 7 4) s = .next (s.thenOk w) ∧ IsShapeWord s.accShape w) ∧
      (∃ w, exec (.erd 7 5) s = .next (s.thenOk w) ∧ IsShapeWord s.fShape w) ∧
      (∃ w, exec (.erd 7 6) s = .next (s.thenOk w) ∧ IsShapeWord s.kShape w) ∧
      (∃ w, exec (.erd 7 7) s = .next (s.thenOk w) ∧ bits w 7 0 = s.vLen.toNat ∧ bits w 31 8 = 0)

/-- The element a successful `EWR` wrote is what the next `ERD` of it returns. -/
def Obligations.ReadBackAfterWrite : Prop :=
  ∀ (s : State) (sp : BitVec 4) (idx : BitVec 12) (value : Word),
    ((sp.toNat = 1 ∨ sp.toNat = 2) ∧ idx.toNat < 1024 ∨ sp.toNat = 4 ∨ sp.toNat = 5) ∧ -128 ≤ value.toInt ∧
          value.toInt ≤ 127 ∨
        sp.toNat = 3 ∧ idx.toNat < 256 →
      ∃ t, exec (.ewr sp idx value) s = .next t ∧ exec (.erd sp idx) t = .next (t.thenOk value)

/-- The assembler's indexed forms (30_encoding.md R70) write and read the element they name and no other, `SHAPE` sets
the shape register it names, for each of the five, and `STRICT` sets `CTRL.STRICT`. -/
def Obligations.PseudoInstructionsAddress : Prop :=
  (∀ (s : State) (r c : Nat) (value : Word), r < 16 → c < 64 → -128 ≤ value.toInt → value.toInt ≤ 127 →
      (∃ m, exec (asmWriteTA r c value) s = .next (State.thenOk { s with ta := m } 0) ∧
          ∀ r' c', r' < 16 → c' < 64 →
            (Store.read m (tileIndex r' c')).toInt = if r' = r ∧ c' = c then value.toInt else (s.taAt r' c').toInt) ∧
        ∃ m, exec (asmWriteTB r c value) s = .next (State.thenOk { s with tb := m } 0) ∧
          ∀ r' c', r' < 16 → c' < 64 →
            (Store.read m (tileIndex r' c')).toInt = if r' = r ∧ c' = c then value.toInt else (s.tbAt r' c').toInt) ∧
    (∀ (s : State) (r n : Nat) (value : Word), r < 16 → n < 16 →
      ∃ m, exec (asmWriteACC r n value) s = .next (State.thenOk { s with acc := m } 0) ∧
        ∀ r' n', r' < 16 → n' < 16 →
          Store.read m (accIndex r' n') = if r' = r ∧ n' = n then value else s.accAt r' n') ∧
    (∀ (s : State) (r c : Nat), r < 16 → c < 64 →
      (∃ w : Word, exec (asmReadTA r c) s = .next (s.thenOk w) ∧ w.toInt = (s.taAt r c).toInt) ∧
        ∃ w : Word, exec (asmReadTB r c) s = .next (s.thenOk w) ∧ w.toInt = (s.tbAt r c).toInt) ∧
    (∀ (s : State) (r n : Nat), r < 16 → n < 16 → exec (asmReadACC r n) s = .next (s.thenOk (s.accAt r n))) ∧
    (∀ (s : State) (j : Nat), j < 64 → exec (asmReadV j) s = .next (s.thenOk (s.vAt j))) ∧
    TileShapeFormRule .taShape 64 (fun s shape => { s with taShape := shape }) ∧
    TileShapeFormRule .tbShape 64 (fun s shape => { s with tbShape := shape }) ∧
    TileShapeFormRule .accShape 16 (fun s shape => { s with accShape := shape }) ∧
    (∀ (s : State) (rows cols : Nat), rows < 256 → cols < 256 →
      exec (asmShape .fShape rows cols) s
          = .next (State.thenOk { s with fShape := { rows := BitVec.ofNat 8 rows, cols := BitVec.ofNat 8 cols } } 0) ∧
        exec (asmShape .kShape rows cols) s
          = .next (State.thenOk { s with kShape := { rows := BitVec.ofNat 8 rows, cols := BitVec.ofNat 8 cols } } 0)) ∧
    ∀ (s : State) (b : Bool), exec (asmStrict b) s = .next (State.thenOk { s with strict := b } 0)

/-- Writing a new `F_SHAPE` or `K_SHAPE` re-views the same flat buffer (20_memory.md R47 (c)): element (r, c) of the new
view is the element of the old view at the same row-major place, which is `reshape_rm`, and no data moves. -/
def Obligations.ShapeWriteReshapes : Prop :=
  ∀ (s : State) (rows cols : BitVec 8),
    (∃ t, exec (asmShape .fShape rows.toNat cols.toNat) s = .next t ∧
        t = State.thenOk { s with fShape := { rows := rows, cols := cols } } 0 ∧
        ∀ r c, t.fAt r c
          = s.fAt ((r * cols.toNat + c) / s.fShape.cols.toNat) ((r * cols.toNat + c) % s.fShape.cols.toNat)) ∧
      ∃ t, exec (asmShape .kShape rows.toNat cols.toNat) s = .next t ∧
        t = State.thenOk { s with kShape := { rows := rows, cols := cols } } 0 ∧
        ∀ r c, t.kAt r c
          = s.kAt ((r * cols.toNat + c) / s.kShape.cols.toNat) ((r * cols.toNat + c) % s.kShape.cols.toNat)

/-- The byte image of a 32-bit element has bits 7:0 at the lowest address. -/
def Obligations.ByteImageIsLittleEndian : Prop :=
  ∀ x : Word, ∃ b0 b1 b2 b3 : Byte, byteImage x = [b0, b1, b2, b3] ∧ x = b3 ++ b2 ++ b1 ++ b0

/-! ### The Engine -/

/-- 40_engine.md R80: `dpbd` is the int32 congruent modulo 2^32 to `c` plus the four signed products; no product and no
four-product sum can itself overflow. -/
def Obligations.DotProductOfLanes : Prop :=
  (∀ (c : Word) (x y : Lanes), ∃ k : Int,
      (dpbd c x y).toInt
        = c.toInt + x.byte0.toInt * y.byte0.toInt + x.byte1.toInt * y.byte1.toInt + x.byte2.toInt * y.byte2.toInt
            + x.byte3.toInt * y.byte3.toInt + k * 2 ^ 32) ∧
    (∀ a b : Byte, -16256 ≤ a.toInt * b.toInt ∧ a.toInt * b.toInt ≤ 16384) ∧
    (∀ x y : Lanes,
      -65024 ≤ x.byte0.toInt * y.byte0.toInt + x.byte1.toInt * y.byte1.toInt + x.byte2.toInt * y.byte2.toInt
            + x.byte3.toInt * y.byte3.toInt ∧
        x.byte0.toInt * y.byte0.toInt + x.byte1.toInt * y.byte1.toInt + x.byte2.toInt * y.byte2.toInt
            + x.byte3.toInt * y.byte3.toInt ≤ 65536) ∧
    dpbd 0 { byte0 := 1, byte1 := 2, byte2 := 3, byte3 := 4 } { byte0 := 5, byte1 := 6, byte2 := 7, byte3 := 8 } = 70

/-- The order of two `dpbd` updates of one dword does not matter. -/
def Obligations.DotProductOrderFree : Prop :=
  ∀ (c : Word) (x y x' y' : Lanes), dpbd (dpbd c x y) x' y' = dpbd (dpbd c x' y') x y

/-- 40_engine.md R84: `TZERO` makes every dword of ACC zero and changes nothing else but `STATUS.LAST`; other words of
its opcode are illegal. -/
def Obligations.TzeroClearsAccumulator : Prop :=
  (∀ s : State, ∃ m, exec .tzero s = .next (State.thenOk { s with acc := m } 0) ∧ ∀ j, Store.read m j = 0) ∧
    NoOperandFormat 3 .tzero

/-- 40_engine.md R82: `TMAC` runs exactly when the tile shapes fit, changing only ACC; on all other shapes it raises
`ShapeMismatch` and nothing else changes. -/
def Obligations.TmacShapeCheck : Prop :=
  ∀ s : State,
    (s.TileShapesFit → ∃ m, exec .tmac s = .next (State.thenOk { s with acc := m } 0)) ∧
      (¬s.TileShapesFit → exec .tmac s = .next s.thenShapeMismatch)

/-- 40_engine.md R86: the closed form of `tmac()`, and that it is a matrix product when TB packs a matrix B. -/
def Obligations.TmacClosedForm : Prop :=
  ∀ s : State, s.TileShapesFit →
    ∃ m, exec .tmac s = .next (State.thenOk { s with acc := m } 0) ∧
      (∀ r n, r < 16 → n < 16 →
        Store.read m (accIndex r n)
          = if s.accShape.rows.toNat ≤ r then 0
            else if s.accShape.cols.toNat ≤ n then s.accAt r n
            else BitVec.ofInt 32 ((s.accAt r n).toInt
              + ∑ j ∈ Finset.range (4 * (s.taShape.cols.toNat / 4)),
                  (s.taAt r j).toInt * (s.tbAt (j / 4) (4 * n + j % 4)).toInt)) ∧
      ∀ B : Nat → Nat → Byte,
        (∀ k n e, k < s.taShape.cols.toNat / 4 → n < s.accShape.cols.toNat → e < 4 →
          s.tbAt k (4 * n + e) = B (4 * k + e) n) →
        ∀ r n, r < 16 → n < 16 → r < s.accShape.rows.toNat → n < s.accShape.cols.toNat →
          Store.read m (accIndex r n)
            = BitVec.ofInt 32 ((s.accAt r n).toInt
              + ∑ j ∈ Finset.range (4 * (s.taShape.cols.toNat / 4)), (s.taAt r j).toInt * (B j n).toInt)

/-- 40_engine.md R87: a `TMAC` that passes its check zeroes all 16 dwords of every row from `ACC_SHAPE.ROWS` on; one that
fails zeroes nothing. -/
def Obligations.TmacZeroesTrailingRows : Prop :=
  ∀ s t : State, exec .tmac s = .next t →
    (s.TileShapesFit → ∀ r n, s.accShape.rows.toNat ≤ r → r < 16 → n < 16 → t.accAt r n = 0) ∧
      (¬s.TileShapesFit → t.acc = s.acc)

/-- 40_engine.md R88: dwords at column `ACC_SHAPE.COLS` and beyond, in rows below `ACC_SHAPE.ROWS`, are unchanged. -/
def Obligations.TmacKeepsTrailingColumns : Prop :=
  ∀ s t : State, exec .tmac s = .next t → ∀ r n, r < s.accShape.rows.toNat → r < 16 → s.accShape.cols.toNat ≤ n →
    n < 16 → t.accAt r n = s.accAt r n

/-- What `TMAC` leaves in ACC depends on nothing outside the regions of TA and TB that its shapes select, the rows of ACC
below `ACC_SHAPE.ROWS`, and the shapes; `TA_SHAPE.ROWS` is not among them. -/
def Obligations.TmacReadsOnlyItsRegion : Prop :=
  ∀ s u t w : State, s.TileShapesFit → s.taShape.cols = u.taShape.cols → s.tbShape = u.tbShape →
    s.accShape = u.accShape →
    (∀ r j, r < s.accShape.rows.toNat → j < s.taShape.cols.toNat → s.taAt r j = u.taAt r j) →
    (∀ k c, k < s.tbShape.rows.toNat → c < s.tbShape.cols.toNat → s.tbAt k c = u.tbAt k c) →
    (∀ r n, r < s.accShape.rows.toNat → n < 16 → s.accAt r n = u.accAt r n) →
    exec .tmac s = .next t → exec .tmac u = .next w →
    ∀ r n, r < 16 → n < 16 → t.accAt r n = w.accAt r n

/-! ### The Pipeline -/

/-- 41_pipeline.md R103, R120: the four Pipeline commands run exactly on the shapes `pipe_check` accepts, and answer the
code of its first failing test, with nothing else changed, on all others. -/
def Obligations.PipelineShapeCheck : Prop :=
  (∀ i : Instr, (∃ p, i = .plda p ∨ i = .pldb p ∨ i = .pdiag p) ∨ i = .hcs →
      RejectsMisfitShapes i ∧ ∀ s : State, s.PipeShapesFit → ∃ t, exec i s = .next t ∧ t.status.last = .ok) ∧
    ∀ s : State,
      s.PipeShapesFit ↔
        s.fShape = s.kShape ∧ s.fShape.rows.toNat % 4 = 0 ∧ s.fShape.cols.toNat % 4 = 0 ∧
          ¬(s.fShape.cols.toNat / 4 > 16 ∨ s.fShape.rows.toNat > 64)

/-- 41_pipeline.md R112: `PLDA i`. -/
def Obligations.PldaLoadsLeftPartition : Prop :=
  (∀ (s : State) (i : BitVec 2), s.PipeShapesFit →
      ∃ m, exec (.plda i) s = .next (State.thenOk { s with ta := m, taShape := { rows := 16, cols := 64 } } 0) ∧
        ∀ r c, r < 16 → c < 64 →
          Store.read m (tileIndex r c)
            = if r < s.fShape.cols.toNat / 4 ∧ c < s.fShape.rows.toNat then
                Store.read s.fmem (c * s.fShape.cols.toNat + (s.fShape.cols.toNat / 4 * i.toNat + r))
              else 0) ∧
    (∀ i, RejectsMisfitShapes (.plda i)) ∧ PartitionFormat 5 .plda

/-- 41_pipeline.md R113: `PLDB i`. -/
def Obligations.PldbLoadsRightPartition : Prop :=
  (∀ (s : State) (i : BitVec 2), s.PipeShapesFit →
      ∃ m, exec (.pldb i) s = .next (State.thenOk { s with tb := m, tbShape := { rows := 16, cols := 64 } } 0) ∧
        ∀ k n e, k < 16 → n < 16 → e < 4 →
          Store.read m (tileIndex k (4 * n + e))
            = if 4 * k + e < s.kShape.rows.toNat ∧ n < s.kShape.cols.toNat / 4 then
                Store.read s.kmem ((4 * k + e) * s.kShape.cols.toNat + (s.kShape.cols.toNat / 4 * i.toNat + n))
              else 0) ∧
    (∀ i, RejectsMisfitShapes (.pldb i)) ∧ PartitionFormat 6 .pldb

/-- `to_tile_b` is the only packing of a matrix into TB under which the grouped dot products of the Engine are the
products with that matrix, for every left operand. -/
def Obligations.TilePackingIsTheOnlyOne : Prop :=
  ∀ B T : Nat → Nat → Byte,
    (∀ A : Nat → Byte, ∀ n, n < 16 →
        ∑ k ∈ Finset.range 16, ∑ e ∈ Finset.range 4, (A (4 * k + e)).toInt * (T k (4 * n + e)).toInt
          = ∑ j ∈ Finset.range 64, (A j).toInt * (B j n).toInt) ↔
      ∀ k c, k < 16 → c < 64 → T k c = toTileB B k c

/-- 41_pipeline.md R114: `PDIAG i`. -/
def Obligations.PdiagExtractsDiagonal : Prop :=
  (∀ (s : State) (i : BitVec 2), s.PipeShapesFit →
      ∃ m, exec (.pdiag i) s = .next (State.thenOk { s with v := m, vLen := s.fShape.cols } 0) ∧
        (∀ k, k < s.fShape.cols.toNat / 4 →
          Store.read m (s.fShape.cols.toNat / 4 * i.toNat + k) = s.accAt k k ∧
            s.fShape.cols.toNat / 4 * i.toNat + k < 64) ∧
        ∀ j, j < s.fShape.cols.toNat / 4 * i.toNat ∨
            s.fShape.cols.toNat / 4 * i.toNat + s.fShape.cols.toNat / 4 ≤ j →
          Store.read m j = Store.read s.v j) ∧
    (∀ i, RejectsMisfitShapes (.pdiag i)) ∧ PartitionFormat 7 .pdiag

/-- `PLDA i`, `PLDB j`, `TZERO`, `TMAC` give the product of left partition i and right partition j, also when i and j
differ, and 0 outside it. -/
def Obligations.StepwisePairProduct : Prop :=
  ∀ (s : State) (i j : BitVec 2), s.PipeShapesFit → s.accShape = { rows := 16, cols := 16 } →
    ∃ t1 t2 t3 t4, exec (.plda i) s = .next t1 ∧ exec (.pldb j) t1 = .next t2 ∧ exec .tzero t2 = .next t3 ∧
      exec .tmac t3 = .next t4 ∧
      ∀ m n, m < 16 → n < 16 →
        (t4.accAt m n).toInt
          = if m < s.fShape.cols.toNat / 4 ∧ n < s.fShape.cols.toNat / 4 then
              s.columnProduct (s.fShape.cols.toNat / 4 * i.toNat + m) (s.fShape.cols.toNat / 4 * j.toNat + n)
            else 0

/-- Zero-padding neutrality: under every tile shape setting that covers the loaded partitions, `TMAC` from a zero
accumulator gives the same product, and 0 outside it. -/
def Obligations.PaddingIsNeutral : Prop :=
  ∀ (s t1 t2 t3 : State) (i : BitVec 2) (a b d : Shape), s.PipeShapesFit → exec (.plda i) s = .next t1 →
    exec (.pldb i) t1 = .next t2 → exec .tzero t2 = .next t3 →
    State.TileShapesFit { t3 with taShape := a, tbShape := b, accShape := d } →
    s.fShape.rows.toNat ≤ a.cols.toNat → a.cols.toNat ≤ 64 → s.fShape.cols.toNat / 4 ≤ d.rows.toNat →
    d.rows.toNat ≤ 16 → s.fShape.cols.toNat / 4 ≤ d.cols.toNat → d.cols.toNat ≤ 16 →
    ∃ t, exec .tmac { t3 with taShape := a, tbShape := b, accShape := d } = .next t ∧
      ∀ m n, m < 16 → n < 16 →
        (t.accAt m n).toInt
          = if m < s.fShape.cols.toNat / 4 ∧ n < s.fShape.cols.toNat / 4 then
              s.columnProduct (s.fShape.cols.toNat / 4 * i.toNat + m) (s.fShape.cols.toNat / 4 * i.toNat + n)
            else 0

/-- The end state of a successful `HCS`: V, `V_LEN`, what pair 3 leaves in the tiles, their shapes, and nothing else. -/
def Obligations.HcsEndState : Prop :=
  ∀ s : State, s.PipeShapesFit →
    ∃ ta tb acc v,
      exec .hcs s
          = .next (State.thenOk
              { s with
                ta := ta, tb := tb, acc := acc, v := v, vLen := s.fShape.cols
                taShape := { rows := 16, cols := 64 }, tbShape := { rows := 16, cols := 64 }
                accShape := { rows := 16, cols := 16 } } 0) ∧
        (∀ j, j < s.fShape.cols.toNat → (Store.read v j).toInt = s.columnProduct j j) ∧
        (∀ j, s.fShape.cols.toNat ≤ j → Store.read v j = s.vAt j) ∧
        (∀ r c, r < 16 → c < 64 →
          Store.read ta (tileIndex r c)
            = if r < s.fShape.cols.toNat / 4 ∧ c < s.fShape.rows.toNat then s.fAt c (s.fShape.cols.toNat / 4 * 3 + r)
              else 0) ∧
        (∀ k n e, k < 16 → n < 16 → e < 4 →
          Store.read tb (tileIndex k (4 * n + e))
            = if 4 * k + e < s.fShape.rows.toNat ∧ n < s.fShape.cols.toNat / 4 then
                s.kAt (4 * k + e) (s.fShape.cols.toNat / 4 * 3 + n)
              else 0) ∧
        ∀ m n, m < 16 → n < 16 →
          (Store.read acc (accIndex m n)).toInt
            = if m < s.fShape.cols.toNat / 4 ∧ n < s.fShape.cols.toNat / 4 then
                s.columnProduct (s.fShape.cols.toNat / 4 * 3 + m) (s.fShape.cols.toNat / 4 * 3 + n)
              else 0

/-- `HCS` does in one command what the 21 commands of the stepwise sequence do, but for the number of responses
(41_pipeline.md R116). The lists that hold what is presented and what was answered are the model's own
(notes/assumptions/3.md, 4.md). -/
def Obligations.HcsEqualsStepwise : Prop :=
  ∀ (s : State) (rest : List HostInput), s.PipeShapesFit → s.pending = stepwiseHcs ++ rest →
    ∃ t u, core.run 21 s = .next t ∧ exec .hcs { s with pending := rest } = .next u ∧
      t = { u with responses := s.responses ++ List.replicate 21 { status := .ok, rdata := 0 } }

/-- 41_pipeline.md R117: after `HCS`, V holds the column sums of the elementwise product of F and K, which are the
diagonal of `transpose(F) × K`, exactly. -/
def Obligations.HcsComputesColumnSums : Prop :=
  ∀ s : State, s.PipeShapesFit →
    ∃ t, exec .hcs s = .next t ∧
      ∀ j, j < s.fShape.cols.toNat →
        (t.vAt j).toInt = ∑ r ∈ Finset.range s.fShape.rows.toNat, (s.fAt r j).toInt * (s.kAt r j).toInt ∧
          (t.vAt j).toInt
            = ∑ r ∈ Finset.range s.fShape.rows.toNat, (transpose s.fAt j r).toInt * (s.kAt r j).toInt

/-- No `HCS` result exceeds 2^20 in magnitude, nor does any dword it leaves in ACC; all elements -128 reach it. -/
def Obligations.HcsResultRange : Prop :=
  (∀ s t : State, s.PipeShapesFit → exec .hcs s = .next t →
      (∀ j, j < s.fShape.cols.toNat → -1048576 ≤ (t.vAt j).toInt ∧ (t.vAt j).toInt ≤ 1048576) ∧
        ∀ m n, m < 16 → n < 16 → -1048576 ≤ (t.accAt m n).toInt ∧ (t.accAt m n).toInt ≤ 1048576) ∧
    ∀ s t : State, s.fShape = { rows := 64, cols := 64 } → s.kShape = { rows := 64, cols := 64 } →
      (∀ j, j < 4096 → Store.read s.fmem j = 0x80 ∧ Store.read s.kmem j = 0x80) → exec .hcs s = .next t →
      ∀ j, j < 64 → (t.vAt j).toInt = 1048576

/-- The result of `HCS`, and what it leaves in the tiles, depend on no state but the two matrices and their shapes. -/
def Obligations.HcsDependsOnMatricesOnly : Prop :=
  ∀ s u t w : State, s.PipeShapesFit → s.fShape = u.fShape → s.kShape = u.kShape →
    (∀ r c, r < s.fShape.rows.toNat → c < s.fShape.cols.toNat → s.fAt r c = u.fAt r c ∧ s.kAt r c = u.kAt r c) →
    exec .hcs s = .next t → exec .hcs u = .next w →
    (∀ j, j < s.fShape.cols.toNat → t.vAt j = w.vAt j) ∧
      (∀ r c, r < 16 → c < 64 → t.taAt r c = w.taAt r c ∧ t.tbAt r c = w.tbAt r c) ∧
      (∀ m n, m < 16 → n < 16 → t.accAt m n = w.accAt m n) ∧ t.vLen = w.vLen
end

