-- ==== Sys2Proof/Laws/State.lean ====
section
/-! SUPPORT. For every named update of the state, what each field is afterwards: one lemma a field, each true by definition. -/

namespace Sys2Proof.Machine

@[simp] theorem respond_strict (code : StatusCode) (rdata : Word) (s : State) :
    (respond code rdata s).strict = s.strict := rfl
@[simp] theorem respond_status (code : StatusCode) (rdata : Word) (s : State) :
    (respond code rdata s).status = recordStatus code s.status := rfl
@[simp] theorem respond_taShape (code : StatusCode) (rdata : Word) (s : State) :
    (respond code rdata s).taShape = s.taShape := rfl
@[simp] theorem respond_tbShape (code : StatusCode) (rdata : Word) (s : State) :
    (respond code rdata s).tbShape = s.tbShape := rfl
@[simp] theorem respond_accShape (code : StatusCode) (rdata : Word) (s : State) :
    (respond code rdata s).accShape = s.accShape := rfl
@[simp] theorem respond_fShape (code : StatusCode) (rdata : Word) (s : State) :
    (respond code rdata s).fShape = s.fShape := rfl
@[simp] theorem respond_kShape (code : StatusCode) (rdata : Word) (s : State) :
    (respond code rdata s).kShape = s.kShape := rfl
@[simp] theorem respond_vLen (code : StatusCode) (rdata : Word) (s : State) :
    (respond code rdata s).vLen = s.vLen := rfl
@[simp] theorem respond_ta (code : StatusCode) (rdata : Word) (s : State) : (respond code rdata s).ta = s.ta := rfl
@[simp] theorem respond_tb (code : StatusCode) (rdata : Word) (s : State) : (respond code rdata s).tb = s.tb := rfl
@[simp] theorem respond_acc (code : StatusCode) (rdata : Word) (s : State) : (respond code rdata s).acc = s.acc := rfl
@[simp] theorem respond_fmem (code : StatusCode) (rdata : Word) (s : State) :
    (respond code rdata s).fmem = s.fmem := rfl
@[simp] theorem respond_kmem (code : StatusCode) (rdata : Word) (s : State) :
    (respond code rdata s).kmem = s.kmem := rfl
@[simp] theorem respond_v (code : StatusCode) (rdata : Word) (s : State) : (respond code rdata s).v = s.v := rfl
@[simp] theorem respond_pending (code : StatusCode) (rdata : Word) (s : State) :
    (respond code rdata s).pending = s.pending := rfl
@[simp] theorem respond_responses (code : StatusCode) (rdata : Word) (s : State) :
    (respond code rdata s).responses = s.responses ++ [{ status := code, rdata := rdata }] := rfl

@[simp] theorem raise_strict (code : StatusCode) (s : State) : (raise code s).strict = s.strict := rfl
@[simp] theorem raise_status (code : StatusCode) (s : State) :
    (raise code s).status = recordStatus code s.status := rfl
@[simp] theorem raise_taShape (code : StatusCode) (s : State) : (raise code s).taShape = s.taShape := rfl
@[simp] theorem raise_tbShape (code : StatusCode) (s : State) : (raise code s).tbShape = s.tbShape := rfl
@[simp] theorem raise_accShape (code : StatusCode) (s : State) : (raise code s).accShape = s.accShape := rfl
@[simp] theorem raise_fShape (code : StatusCode) (s : State) : (raise code s).fShape = s.fShape := rfl
@[simp] theorem raise_kShape (code : StatusCode) (s : State) : (raise code s).kShape = s.kShape := rfl
@[simp] theorem raise_vLen (code : StatusCode) (s : State) : (raise code s).vLen = s.vLen := rfl
@[simp] theorem raise_ta (code : StatusCode) (s : State) : (raise code s).ta = s.ta := rfl
@[simp] theorem raise_tb (code : StatusCode) (s : State) : (raise code s).tb = s.tb := rfl
@[simp] theorem raise_acc (code : StatusCode) (s : State) : (raise code s).acc = s.acc := rfl
@[simp] theorem raise_fmem (code : StatusCode) (s : State) : (raise code s).fmem = s.fmem := rfl
@[simp] theorem raise_kmem (code : StatusCode) (s : State) : (raise code s).kmem = s.kmem := rfl
@[simp] theorem raise_v (code : StatusCode) (s : State) : (raise code s).v = s.v := rfl
@[simp] theorem raise_pending (code : StatusCode) (s : State) : (raise code s).pending = s.pending := rfl
@[simp] theorem raise_responses (code : StatusCode) (s : State) :
    (raise code s).responses = s.responses ++ [{ status := code, rdata := 0 }] := rfl

@[simp] theorem loadLeft_strict (i : Nat) (s : State) : (loadLeft i s).strict = s.strict := rfl
@[simp] theorem loadLeft_status (i : Nat) (s : State) : (loadLeft i s).status = s.status := rfl
@[simp] theorem loadLeft_taShape (i : Nat) (s : State) : (loadLeft i s).taShape = { rows := 16, cols := 64 } := rfl
@[simp] theorem loadLeft_tbShape (i : Nat) (s : State) : (loadLeft i s).tbShape = s.tbShape := rfl
@[simp] theorem loadLeft_accShape (i : Nat) (s : State) : (loadLeft i s).accShape = s.accShape := rfl
@[simp] theorem loadLeft_fShape (i : Nat) (s : State) : (loadLeft i s).fShape = s.fShape := rfl
@[simp] theorem loadLeft_kShape (i : Nat) (s : State) : (loadLeft i s).kShape = s.kShape := rfl
@[simp] theorem loadLeft_vLen (i : Nat) (s : State) : (loadLeft i s).vLen = s.vLen := rfl
@[simp] theorem loadLeft_ta (i : Nat) (s : State) :
    (loadLeft i s).ta = tileOf (padA s.pipeQ s.pipeM (sliceRows (transpose s.fAt) i s.pipeQ)) := by
  simp only [loadLeft]
@[simp] theorem loadLeft_tb (i : Nat) (s : State) : (loadLeft i s).tb = s.tb := rfl
@[simp] theorem loadLeft_acc (i : Nat) (s : State) : (loadLeft i s).acc = s.acc := rfl
@[simp] theorem loadLeft_fmem (i : Nat) (s : State) : (loadLeft i s).fmem = s.fmem := rfl
@[simp] theorem loadLeft_kmem (i : Nat) (s : State) : (loadLeft i s).kmem = s.kmem := rfl
@[simp] theorem loadLeft_v (i : Nat) (s : State) : (loadLeft i s).v = s.v := rfl
@[simp] theorem loadLeft_pending (i : Nat) (s : State) : (loadLeft i s).pending = s.pending := rfl
@[simp] theorem loadLeft_responses (i : Nat) (s : State) : (loadLeft i s).responses = s.responses := rfl

@[simp] theorem loadRight_strict (i : Nat) (s : State) : (loadRight i s).strict = s.strict := rfl
@[simp] theorem loadRight_status (i : Nat) (s : State) : (loadRight i s).status = s.status := rfl
@[simp] theorem loadRight_taShape (i : Nat) (s : State) : (loadRight i s).taShape = s.taShape := rfl
@[simp] theorem loadRight_tbShape (i : Nat) (s : State) : (loadRight i s).tbShape = { rows := 16, cols := 64 } := rfl
@[simp] theorem loadRight_accShape (i : Nat) (s : State) : (loadRight i s).accShape = s.accShape := rfl
@[simp] theorem loadRight_fShape (i : Nat) (s : State) : (loadRight i s).fShape = s.fShape := rfl
@[simp] theorem loadRight_kShape (i : Nat) (s : State) : (loadRight i s).kShape = s.kShape := rfl
@[simp] theorem loadRight_vLen (i : Nat) (s : State) : (loadRight i s).vLen = s.vLen := rfl
@[simp] theorem loadRight_ta (i : Nat) (s : State) : (loadRight i s).ta = s.ta := rfl
@[simp] theorem loadRight_tb (i : Nat) (s : State) :
    (loadRight i s).tb = tileOf (toTileB (padB s.pipeQ s.pipeM (sliceCols s.kAt i s.pipeQ))) := by
  simp only [loadRight]
@[simp] theorem loadRight_acc (i : Nat) (s : State) : (loadRight i s).acc = s.acc := rfl
@[simp] theorem loadRight_fmem (i : Nat) (s : State) : (loadRight i s).fmem = s.fmem := rfl
@[simp] theorem loadRight_kmem (i : Nat) (s : State) : (loadRight i s).kmem = s.kmem := rfl
@[simp] theorem loadRight_v (i : Nat) (s : State) : (loadRight i s).v = s.v := rfl
@[simp] theorem loadRight_pending (i : Nat) (s : State) : (loadRight i s).pending = s.pending := rfl
@[simp] theorem loadRight_responses (i : Nat) (s : State) : (loadRight i s).responses = s.responses := rfl

@[simp] theorem zeroAcc_strict (s : State) : (zeroAcc s).strict = s.strict := rfl
@[simp] theorem zeroAcc_status (s : State) : (zeroAcc s).status = s.status := rfl
@[simp] theorem zeroAcc_taShape (s : State) : (zeroAcc s).taShape = s.taShape := rfl
@[simp] theorem zeroAcc_tbShape (s : State) : (zeroAcc s).tbShape = s.tbShape := rfl
@[simp] theorem zeroAcc_accShape (s : State) : (zeroAcc s).accShape = s.accShape := rfl
@[simp] theorem zeroAcc_fShape (s : State) : (zeroAcc s).fShape = s.fShape := rfl
@[simp] theorem zeroAcc_kShape (s : State) : (zeroAcc s).kShape = s.kShape := rfl
@[simp] theorem zeroAcc_vLen (s : State) : (zeroAcc s).vLen = s.vLen := rfl
@[simp] theorem zeroAcc_ta (s : State) : (zeroAcc s).ta = s.ta := rfl
@[simp] theorem zeroAcc_tb (s : State) : (zeroAcc s).tb = s.tb := rfl
@[simp] theorem zeroAcc_acc (s : State) : (zeroAcc s).acc = [] := rfl
@[simp] theorem zeroAcc_fmem (s : State) : (zeroAcc s).fmem = s.fmem := rfl
@[simp] theorem zeroAcc_kmem (s : State) : (zeroAcc s).kmem = s.kmem := rfl
@[simp] theorem zeroAcc_v (s : State) : (zeroAcc s).v = s.v := rfl
@[simp] theorem zeroAcc_pending (s : State) : (zeroAcc s).pending = s.pending := rfl
@[simp] theorem zeroAcc_responses (s : State) : (zeroAcc s).responses = s.responses := rfl

@[simp] theorem tmac_strict (s : State) : (tmac s).strict = s.strict := rfl
@[simp] theorem tmac_status (s : State) : (tmac s).status = s.status := rfl
@[simp] theorem tmac_taShape (s : State) : (tmac s).taShape = s.taShape := rfl
@[simp] theorem tmac_tbShape (s : State) : (tmac s).tbShape = s.tbShape := rfl
@[simp] theorem tmac_accShape (s : State) : (tmac s).accShape = s.accShape := rfl
@[simp] theorem tmac_fShape (s : State) : (tmac s).fShape = s.fShape := rfl
@[simp] theorem tmac_kShape (s : State) : (tmac s).kShape = s.kShape := rfl
@[simp] theorem tmac_vLen (s : State) : (tmac s).vLen = s.vLen := rfl
@[simp] theorem tmac_ta (s : State) : (tmac s).ta = s.ta := rfl
@[simp] theorem tmac_tb (s : State) : (tmac s).tb = s.tb := rfl
@[simp] theorem tmac_acc (s : State) :
    (tmac s).acc = Store.ofList ((List.range Config.tileRows).flatMap (tmacResultRow s)) := rfl
@[simp] theorem tmac_fmem (s : State) : (tmac s).fmem = s.fmem := rfl
@[simp] theorem tmac_kmem (s : State) : (tmac s).kmem = s.kmem := rfl
@[simp] theorem tmac_v (s : State) : (tmac s).v = s.v := rfl
@[simp] theorem tmac_pending (s : State) : (tmac s).pending = s.pending := rfl
@[simp] theorem tmac_responses (s : State) : (tmac s).responses = s.responses := rfl

@[simp] theorem extractDiag_strict (i : Nat) (s : State) : (extractDiag i s).strict = s.strict := rfl
@[simp] theorem extractDiag_status (i : Nat) (s : State) : (extractDiag i s).status = s.status := rfl
@[simp] theorem extractDiag_taShape (i : Nat) (s : State) : (extractDiag i s).taShape = s.taShape := rfl
@[simp] theorem extractDiag_tbShape (i : Nat) (s : State) : (extractDiag i s).tbShape = s.tbShape := rfl
@[simp] theorem extractDiag_accShape (i : Nat) (s : State) : (extractDiag i s).accShape = s.accShape := rfl
@[simp] theorem extractDiag_fShape (i : Nat) (s : State) : (extractDiag i s).fShape = s.fShape := rfl
@[simp] theorem extractDiag_kShape (i : Nat) (s : State) : (extractDiag i s).kShape = s.kShape := rfl
@[simp] theorem extractDiag_vLen (i : Nat) (s : State) : (extractDiag i s).vLen = s.fShape.cols := rfl
@[simp] theorem extractDiag_ta (i : Nat) (s : State) : (extractDiag i s).ta = s.ta := rfl
@[simp] theorem extractDiag_tb (i : Nat) (s : State) : (extractDiag i s).tb = s.tb := rfl
@[simp] theorem extractDiag_acc (i : Nat) (s : State) : (extractDiag i s).acc = s.acc := rfl
@[simp] theorem extractDiag_fmem (i : Nat) (s : State) : (extractDiag i s).fmem = s.fmem := rfl
@[simp] theorem extractDiag_kmem (i : Nat) (s : State) : (extractDiag i s).kmem = s.kmem := rfl
@[simp] theorem extractDiag_v (i : Nat) (s : State) :
    (extractDiag i s).v = (List.range s.pipeQ).foldl (fun v k => Store.write v (s.pipeQ * i + k) (s.accAt k k)) s.v := rfl
@[simp] theorem extractDiag_pending (i : Nat) (s : State) : (extractDiag i s).pending = s.pending := rfl
@[simp] theorem extractDiag_responses (i : Nat) (s : State) : (extractDiag i s).responses = s.responses := rfl

@[simp] theorem thenOk_strict (s : State) (rdata : Word) : (s.thenOk rdata).strict = s.strict := rfl
@[simp] theorem thenOk_status (s : State) (rdata : Word) :
    (s.thenOk rdata).status = { s.status with last := .ok } := rfl
@[simp] theorem thenOk_taShape (s : State) (rdata : Word) : (s.thenOk rdata).taShape = s.taShape := rfl
@[simp] theorem thenOk_tbShape (s : State) (rdata : Word) : (s.thenOk rdata).tbShape = s.tbShape := rfl
@[simp] theorem thenOk_accShape (s : State) (rdata : Word) : (s.thenOk rdata).accShape = s.accShape := rfl
@[simp] theorem thenOk_fShape (s : State) (rdata : Word) : (s.thenOk rdata).fShape = s.fShape := rfl
@[simp] theorem thenOk_kShape (s : State) (rdata : Word) : (s.thenOk rdata).kShape = s.kShape := rfl
@[simp] theorem thenOk_vLen (s : State) (rdata : Word) : (s.thenOk rdata).vLen = s.vLen := rfl
@[simp] theorem thenOk_ta (s : State) (rdata : Word) : (s.thenOk rdata).ta = s.ta := rfl
@[simp] theorem thenOk_tb (s : State) (rdata : Word) : (s.thenOk rdata).tb = s.tb := rfl
@[simp] theorem thenOk_acc (s : State) (rdata : Word) : (s.thenOk rdata).acc = s.acc := rfl
@[simp] theorem thenOk_fmem (s : State) (rdata : Word) : (s.thenOk rdata).fmem = s.fmem := rfl
@[simp] theorem thenOk_kmem (s : State) (rdata : Word) : (s.thenOk rdata).kmem = s.kmem := rfl
@[simp] theorem thenOk_v (s : State) (rdata : Word) : (s.thenOk rdata).v = s.v := rfl
@[simp] theorem thenOk_pending (s : State) (rdata : Word) : (s.thenOk rdata).pending = s.pending := rfl
@[simp] theorem thenOk_responses (s : State) (rdata : Word) :
    (s.thenOk rdata).responses = s.responses ++ [{ status := .ok, rdata := rdata }] := rfl

/-! The views of the state depend on the fields they read alone. -/

theorem taAt_congr {s t : State} (h0 : s.ta = t.ta) : s.taAt = t.taAt := by
  funext r c
  simp only [State.taAt, h0]

theorem tbAt_congr {s t : State} (h0 : s.tb = t.tb) : s.tbAt = t.tbAt := by
  funext r c
  simp only [State.tbAt, h0]

theorem accAt_congr {s t : State} (h0 : s.acc = t.acc) : s.accAt = t.accAt := by
  funext r n
  simp only [State.accAt, h0]

theorem vAt_congr {s t : State} (h0 : s.v = t.v) : s.vAt = t.vAt := by
  funext j
  simp only [State.vAt, h0]

theorem fAt_congr {s t : State} (h0 : s.fmem = t.fmem) (h1 : s.fShape = t.fShape) : s.fAt = t.fAt := by
  funext r c
  simp only [State.fAt, h0, h1]

theorem kAt_congr {s t : State} (h0 : s.kmem = t.kmem) (h1 : s.kShape = t.kShape) : s.kAt = t.kAt := by
  funext r c
  simp only [State.kAt, h0, h1]

/-! An operation that writes none of the fields a view reads leaves the view as it was. -/

@[simp] theorem thenOk_taAt (s : State) (rdata : Word) : (s.thenOk rdata).taAt = s.taAt := taAt_congr rfl
@[simp] theorem thenOk_tbAt (s : State) (rdata : Word) : (s.thenOk rdata).tbAt = s.tbAt := tbAt_congr rfl
@[simp] theorem thenOk_accAt (s : State) (rdata : Word) : (s.thenOk rdata).accAt = s.accAt := accAt_congr rfl
@[simp] theorem thenOk_vAt (s : State) (rdata : Word) : (s.thenOk rdata).vAt = s.vAt := vAt_congr rfl
@[simp] theorem thenOk_fAt (s : State) (rdata : Word) : (s.thenOk rdata).fAt = s.fAt := fAt_congr rfl rfl
@[simp] theorem thenOk_kAt (s : State) (rdata : Word) : (s.thenOk rdata).kAt = s.kAt := kAt_congr rfl rfl

@[simp] theorem loadLeft_tbAt (i : Nat) (s : State) : (loadLeft i s).tbAt = s.tbAt := tbAt_congr rfl
@[simp] theorem loadLeft_accAt (i : Nat) (s : State) : (loadLeft i s).accAt = s.accAt := accAt_congr rfl
@[simp] theorem loadLeft_vAt (i : Nat) (s : State) : (loadLeft i s).vAt = s.vAt := vAt_congr rfl
@[simp] theorem loadLeft_fAt (i : Nat) (s : State) : (loadLeft i s).fAt = s.fAt := fAt_congr rfl rfl
@[simp] theorem loadLeft_kAt (i : Nat) (s : State) : (loadLeft i s).kAt = s.kAt := kAt_congr rfl rfl

@[simp] theorem loadRight_taAt (i : Nat) (s : State) : (loadRight i s).taAt = s.taAt := taAt_congr rfl
@[simp] theorem loadRight_accAt (i : Nat) (s : State) : (loadRight i s).accAt = s.accAt := accAt_congr rfl
@[simp] theorem loadRight_vAt (i : Nat) (s : State) : (loadRight i s).vAt = s.vAt := vAt_congr rfl
@[simp] theorem loadRight_fAt (i : Nat) (s : State) : (loadRight i s).fAt = s.fAt := fAt_congr rfl rfl
@[simp] theorem loadRight_kAt (i : Nat) (s : State) : (loadRight i s).kAt = s.kAt := kAt_congr rfl rfl

@[simp] theorem zeroAcc_taAt (s : State) : (zeroAcc s).taAt = s.taAt := taAt_congr rfl
@[simp] theorem zeroAcc_tbAt (s : State) : (zeroAcc s).tbAt = s.tbAt := tbAt_congr rfl
@[simp] theorem zeroAcc_vAt (s : State) : (zeroAcc s).vAt = s.vAt := vAt_congr rfl
@[simp] theorem zeroAcc_fAt (s : State) : (zeroAcc s).fAt = s.fAt := fAt_congr rfl rfl
@[simp] theorem zeroAcc_kAt (s : State) : (zeroAcc s).kAt = s.kAt := kAt_congr rfl rfl

@[simp] theorem tmac_taAt (s : State) : (tmac s).taAt = s.taAt := taAt_congr rfl
@[simp] theorem tmac_tbAt (s : State) : (tmac s).tbAt = s.tbAt := tbAt_congr rfl
@[simp] theorem tmac_vAt (s : State) : (tmac s).vAt = s.vAt := vAt_congr rfl
@[simp] theorem tmac_fAt (s : State) : (tmac s).fAt = s.fAt := fAt_congr rfl rfl
@[simp] theorem tmac_kAt (s : State) : (tmac s).kAt = s.kAt := kAt_congr rfl rfl

@[simp] theorem extractDiag_taAt (i : Nat) (s : State) : (extractDiag i s).taAt = s.taAt := taAt_congr rfl
@[simp] theorem extractDiag_tbAt (i : Nat) (s : State) : (extractDiag i s).tbAt = s.tbAt := tbAt_congr rfl
@[simp] theorem extractDiag_accAt (i : Nat) (s : State) : (extractDiag i s).accAt = s.accAt := accAt_congr rfl
@[simp] theorem extractDiag_fAt (i : Nat) (s : State) : (extractDiag i s).fAt = s.fAt := fAt_congr rfl rfl
@[simp] theorem extractDiag_kAt (i : Nat) (s : State) : (extractDiag i s).kAt = s.kAt := kAt_congr rfl rfl

/-! The operations of the Pipeline commands as updates of the state. -/

theorem loadLeft_eq (i : Nat) (s : State) :
    loadLeft i s = { s with ta := (loadLeft i s).ta, taShape := { rows := 16, cols := 64 } } := by
  simp only [loadLeft]

theorem loadRight_eq (i : Nat) (s : State) :
    loadRight i s = { s with tb := (loadRight i s).tb, tbShape := { rows := 16, cols := 64 } } := by
  simp only [loadRight]

theorem extractDiag_eq (i : Nat) (s : State) :
    extractDiag i s = { s with v := (extractDiag i s).v, vLen := s.fShape.cols } := by
  simp only [extractDiag]

@[simp] theorem respond_ok (rdata : Word) (s : State) : respond .ok rdata s = s.thenOk rdata := rfl

@[simp] theorem raise_illegalCommand (s : State) : raise .illegalCommand s = s.thenIllegal := rfl

@[simp] theorem raise_shapeMismatch (s : State) : raise .shapeMismatch s = s.thenShapeMismatch := rfl

@[simp] theorem raise_dimensionTooLarge (s : State) : raise .dimensionTooLarge s = s.thenDimensionTooLarge := rfl

@[simp] theorem raise_outOfRange (s : State) : raise .outOfRange s = s.thenOutOfRange := rfl

end Sys2Proof.Machine
end

