-- ==== Sys2Proof/Laws/Store.lean ====
section
/-! SUPPORT. The laws of the data storages: what a read gives after each operation, and that each operation keeps the
canonical form. -/

namespace Sys2Proof.Machine

variable {w : Nat}

@[simp] theorem Store.read_nil (a : Nat) : Store.read ([] : Store w) a = 0 := rfl

theorem Store.read_insert (m : Store w) (a b : Nat) (v : BitVec w) :
    Store.read (Store.insert m a v) b = if b = a then v else Store.read m b := by
  induction m with
  | nil => simp [Store.insert, Store.read]
  | cons p rest ih =>
    obtain ⟨c, x⟩ := p
    simp only [Store.insert]
    split
    · simp [Store.read]
    · split
      · subst a
        simp only [Store.read]
        split <;> rfl
      · simp only [Store.read, ih]
        split <;> split <;> first | rfl | omega

theorem Store.read_erase (m : Store w) (a b : Nat) :
    Store.read (Store.erase m a) b = if b = a then 0 else Store.read m b := by
  induction m with
  | nil => simp [Store.erase]
  | cons p rest ih =>
    obtain ⟨c, x⟩ := p
    simp only [Store.erase] at ih
    simp only [Store.erase, List.filter_cons, bne_iff_ne, ne_eq, Store.read]
    by_cases hc : c = a
    · subst hc
      simp only [not_true_eq_false, if_false, ih]
      split <;> rfl
    · simp only [hc, not_false_eq_true, if_true, Store.read, ih]
      split <;> split <;> first | rfl | omega

/-- The law of one write: the element at the index is the value written, every other element is as before. -/
theorem Store.read_write (m : Store w) (a b : Nat) (v : BitVec w) :
    Store.read (Store.write m a v) b = if b = a then v else Store.read m b := by
  unfold Store.write
  split
  · rename_i h
    rw [Store.read_erase, h]
  · exact Store.read_insert m a b v

@[simp] theorem Store.read_write_same (m : Store w) (a : Nat) (v : BitVec w) :
    Store.read (Store.write m a v) a = v := by
  simp [Store.read_write]

theorem Store.read_write_other (m : Store w) {a b : Nat} (v : BitVec w) (h : b ≠ a) :
    Store.read (Store.write m a v) b = Store.read m b := by
  simp [Store.read_write, h]

theorem Store.read_ofListFrom (start : Nat) (xs : List (BitVec w)) (a : Nat) :
    Store.read (Store.ofListFrom start xs) a = if a < start then 0 else xs.getD (a - start) 0 := by
  induction xs generalizing start with
  | nil => simp [Store.ofListFrom]
  | cons x rest ih =>
    have key : Store.read (Store.ofListFrom (start + 1) rest) a
        = if a ≤ start then 0 else rest.getD (a - (start + 1)) 0 := by
      rw [ih]
      split <;> split <;> first | rfl | omega
    by_cases h : a < start
    · rw [if_pos h]
      simp only [Store.ofListFrom]
      split
      · rw [key, if_pos (by omega)]
      · rw [Store.read, if_neg (by omega), key, if_pos (by omega)]
    · rw [if_neg h]
      simp only [Store.ofListFrom]
      obtain rfl | h' : a = start ∨ start < a := by omega
      · split
        · rename_i hx
          rw [key, if_pos (by omega)]
          simp [hx]
        · simp [Store.read]
      · have e : a - start = (a - (start + 1)) + 1 := by omega
        split
        · rw [key, if_neg (by omega), e, List.getD_cons_succ]
        · rw [Store.read, if_neg (by omega), key, if_neg (by omega), e, List.getD_cons_succ]

/-- A storage made of a list reads as the list, and 0 beyond it. -/
@[simp] theorem Store.read_ofList (xs : List (BitVec w)) (a : Nat) :
    Store.read (Store.ofList xs) a = xs.getD a 0 := by
  simp [Store.ofList, Store.read_ofListFrom]

/-- A tabulated storage reads as its function below its size, and 0 beyond it. -/
@[simp] theorem Store.read_tabulate (size : Nat) (f : Nat → BitVec w) (a : Nat) :
    Store.read (Store.tabulate size f) a = if a < size then f a else 0 := by
  simp only [Store.tabulate, Store.read_ofList, List.getD_eq_getElem?_getD, List.getElem?_map]
  split
  · rename_i h
    simp [List.getElem?_range h]
  · rename_i h
    simp [List.getElem?_eq_none (l := List.range size) (by simpa using h)]

theorem Store.wf_nil (size : Nat) : Store.wf size ([] : Store w) := by
  simp [Store.wf]

theorem Store.wf_erase {size : Nat} {m : Store w} (h : Store.wf size m) (a : Nat) :
    Store.wf size (Store.erase m a) :=
  ⟨h.1.filter _, fun p hp => h.2 p (List.mem_filter.mp hp).1⟩

theorem Store.mem_insert {m : Store w} {a : Nat} {v : BitVec w} {p : Nat × BitVec w}
    (h : p ∈ Store.insert m a v) : p = (a, v) ∨ p ∈ m := by
  induction m with
  | nil => simpa [Store.insert] using h
  | cons q rest ih =>
    simp only [Store.insert] at h
    split at h
    · simpa using h
    · split at h
      · rcases List.mem_cons.mp h with h | h
        · exact .inl h
        · exact .inr (List.mem_cons_of_mem _ h)
      · rcases List.mem_cons.mp h with h | h
        · exact .inr (h ▸ List.mem_cons_self)
        · exact (ih h).imp id (List.mem_cons_of_mem _)

theorem Store.pairwise_insert {m : Store w} (h : m.Pairwise (fun p q => p.1 < q.1)) (a : Nat) (v : BitVec w) :
    (Store.insert m a v).Pairwise (fun p q => p.1 < q.1) := by
  induction m with
  | nil => simp [Store.insert]
  | cons q rest ih =>
    obtain ⟨b, x⟩ := q
    obtain ⟨hb, hr⟩ := List.pairwise_cons.mp h
    simp only [Store.insert]
    split
    · rename_i hlt
      refine List.pairwise_cons.mpr ⟨fun p hp => ?_, h⟩
      rcases List.mem_cons.mp hp with rfl | hp
      · exact hlt
      · exact Nat.lt_trans hlt (hb p hp)
    · split
      · rename_i _ heq
        exact List.pairwise_cons.mpr ⟨fun p hp => heq ▸ hb p hp, hr⟩
      · refine List.pairwise_cons.mpr ⟨fun p hp => ?_, ih hr⟩
        rcases Store.mem_insert hp with rfl | hp
        · simp only
          omega
        · exact hb p hp

theorem Store.wf_insert {size : Nat} {m : Store w} (h : Store.wf size m) {a : Nat} {v : BitVec w} (ha : a < size)
    (hv : v ≠ 0) : Store.wf size (Store.insert m a v) := by
  refine ⟨Store.pairwise_insert h.1 a v, fun p hp => ?_⟩
  rcases Store.mem_insert hp with rfl | hp
  · exact ⟨hv, ha⟩
  · exact h.2 p hp

/-- A write within the size keeps the canonical form. -/
theorem Store.wf_write {size : Nat} {m : Store w} (h : Store.wf size m) {a : Nat} (v : BitVec w) (ha : a < size) :
    Store.wf size (Store.write m a v) := by
  unfold Store.write
  split
  · exact Store.wf_erase h a
  · rename_i hv
    exact Store.wf_insert h ha hv

theorem Store.wf_ofListFrom (start : Nat) (xs : List (BitVec w)) :
    (Store.ofListFrom start xs).Pairwise (fun p q => p.1 < q.1) ∧
      ∀ p ∈ Store.ofListFrom start xs, p.2 ≠ 0 ∧ start ≤ p.1 ∧ p.1 < start + xs.length := by
  induction xs generalizing start with
  | nil => simp [Store.ofListFrom]
  | cons x rest ih =>
    obtain ⟨hp, hm⟩ := ih (start + 1)
    simp only [Store.ofListFrom, List.length_cons]
    split
    · refine ⟨hp, fun p h => ?_⟩
      have := hm p h
      exact ⟨this.1, by omega, by omega⟩
    · rename_i hx
      refine ⟨List.pairwise_cons.mpr ⟨fun p h => ?_, hp⟩, fun p h => ?_⟩
      · have := (hm p h).2.1
        simp only
        omega
      · rcases List.mem_cons.mp h with rfl | h
        · exact ⟨hx, Nat.le_refl _, by simp⟩
        · have := hm p h
          exact ⟨this.1, by omega, by omega⟩

/-- A storage made of a list no longer than the size has the canonical form. -/
theorem Store.wf_ofList {size : Nat} (xs : List (BitVec w)) (h : xs.length ≤ size) :
    Store.wf size (Store.ofList xs) := by
  obtain ⟨hp, hm⟩ := Store.wf_ofListFrom 0 xs
  refine ⟨hp, fun p hq => ?_⟩
  have := hm p hq
  exact ⟨this.1, by omega⟩

/-- A tabulated storage has the canonical form. -/
theorem Store.wf_tabulate (size : Nat) (f : Nat → BitVec w) : Store.wf size (Store.tabulate size f) :=
  Store.wf_ofList _ (by simp)

/-- In the canonical form an element is 0 exactly when its index is not listed. -/
theorem Store.read_eq_zero_of_not_listed {m : Store w} {a : Nat} (h : ∀ p ∈ m, p.1 ≠ a) : Store.read m a = 0 := by
  induction m with
  | nil => rfl
  | cons p rest ih =>
    have hp := h p List.mem_cons_self
    rw [Store.read, if_neg (fun e => hp e.symm)]
    exact ih (fun q hq => h q (List.mem_cons_of_mem _ hq))

theorem Store.read_of_mem {m : Store w} (h : m.Pairwise (fun p q => p.1 < q.1)) {p : Nat × BitVec w} (hp : p ∈ m) :
    Store.read m p.1 = p.2 := by
  induction m with
  | nil => cases hp
  | cons q rest ih =>
    obtain ⟨hq, hr⟩ := List.pairwise_cons.mp h
    rcases List.mem_cons.mp hp with rfl | hp
    · simp [Store.read]
    · have := hq p hp
      rw [Store.read, if_neg (by omega)]
      exact ih hr hp

/-- Canonical storages that read alike are the same list. -/
theorem Store.ext_of_wf {size : Nat} {m n : Store w} (hm : Store.wf size m) (hn : Store.wf size n)
    (h : ∀ a, Store.read m a = Store.read n a) : m = n := by
  have sub : ∀ {x y : Store w}, Store.wf size x → Store.wf size y → (∀ a, Store.read x a = Store.read y a) →
      ∀ p ∈ x, p ∈ y := by
    intro x y hx hy hxy p hp
    by_cases hl : ∀ q ∈ y, q.1 ≠ p.1
    · have h0 := Store.read_eq_zero_of_not_listed hl
      rw [← hxy, Store.read_of_mem hx.1 hp] at h0
      exact absurd h0 (hx.2 p hp).1
    · push Not at hl
      obtain ⟨q, hq, e⟩ := hl
      have h1 := Store.read_of_mem hy.1 hq
      rw [e, ← hxy, Store.read_of_mem hx.1 hp] at h1
      have : p = q := Prod.ext e.symm h1
      exact this ▸ hq
  have nd : ∀ {x : Store w}, Store.wf size x → x.Nodup := fun hx =>
    hx.1.imp (fun hlt e => by rw [e] at hlt; omega)
  refine List.Perm.eq_of_pairwise (le := fun p q => p.1 < q.1) (fun a b _ _ h1 h2 => by omega) hm.1 hn.1 ?_
  exact (List.perm_ext_iff_of_nodup (nd hm) (nd hn)).mpr (fun p => ⟨sub hm hn h p, sub hn hm (fun a => (h a).symm) p⟩)

end Sys2Proof.Machine
end

