-- ==== Sys2Proof/Laws/Ops.lean ====
section
/-! SUPPORT. For each shared operation, one lemma that says once what it can do. -/

namespace Sys2Proof.Machine

/-! ### Ends of commands -/

@[simp] theorem finish_ok (t s : State) : finish (.ok t) s = .next (t.thenOk 0) := rfl

@[simp] theorem finish_error (code : StatusCode) (s : State) : finish (.error code) s = .next (raise code s) := rfl

@[simp] theorem preflight_ok (t : State) : preflight .ok t = .ok t := rfl

theorem preflight_error {check : StatusCode} (h : check ≠ .ok) (t : State) : preflight check t = .error check := by
  simp [preflight, h]

/-- A command that ends with `finish` answers a next state: that of its effect, or the error in the state before it. -/
theorem finish_eq_next {result : Except StatusCode State} {s t : State} :
    finish result s = .next t ↔
      (∃ u, result = .ok u ∧ t = u.thenOk 0) ∨ ∃ code, result = .error code ∧ t = raise code s := by
  cases result with
  | ok u => simp [eq_comm]
  | error code => simp [eq_comm]

/-- A command with a pre-flight check has its effect when the check answers OK, and raises the check's code when not. -/
theorem finish_preflight_eq_next {check : StatusCode} {effect s t : State} :
    finish (preflight check effect) s = .next t ↔
      (check = .ok ∧ t = effect.thenOk 0) ∨ (check ≠ .ok ∧ t = raise check s) := by
  by_cases h : check = .ok
  · subst h
    simp [eq_comm]
  · simp [preflight_error h, h, eq_comm]

/-- A command whose check answers OK completes with the state of its effect. -/
theorem finish_preflight_ok {check : StatusCode} (h : check = .ok) (effect s : State) :
    finish (preflight check effect) s = .next (effect.thenOk 0) := by
  subst h
  rfl

/-- `STATUS` after a command: `LAST` is the code, and each `_SEEN` bit is as before or set by its own code. -/
theorem recordStatus_fields (code : StatusCode) (st : Status) :
    (recordStatus code st).last = code ∧
      (recordStatus code st).smSeen = (st.smSeen || code == .shapeMismatch) ∧
      (recordStatus code st).dtlSeen = (st.dtlSeen || code == .dimensionTooLarge) ∧
      (recordStatus code st).oorSeen = (st.oorSeen || code == .outOfRange) ∧
      (recordStatus code st).illSeen = (st.illSeen || code == .illegalCommand) := by
  cases code <;> simp [recordStatus]

/-! ### Checks -/

/-- `tmac_check` answers OK exactly on the tile shapes that fit, and `ShapeMismatch` on all others. -/
theorem tmacCheck_eq (s : State) : tmacCheck s = if s.TileShapesFit then .ok else .shapeMismatch := by
  unfold tmacCheck State.TileShapesFit
  split
  · rename_i h
    simp [h]
  · split
    · rename_i h
      simp [h]
    · split
      · rename_i h
        simp [h]
      · split
        · rename_i h
          simp [h]
        · rename_i h1 h2 h3 h4
          rw [if_pos ⟨by omega, by omega, by omega, by omega⟩]

theorem shape_ext {a b : Shape} (h1 : a.rows = b.rows) (h2 : a.cols = b.cols) : a = b := by
  cases a
  cases b
  simp_all

/-- `pipe_check` answers OK exactly on the shapes the Pipeline accepts. -/
theorem pipeCheck_eq_ok (s : State) : pipeCheck s = .ok ↔ s.PipeShapesFit := by
  unfold pipeCheck State.PipeShapesFit State.pipeM State.pipeN
  constructor
  · intro h
    split at h
    · cases h
    · split at h
      · cases h
      · split at h
        · cases h
        · rename_i h1 h2 h3
          push Not at h1 h2 h3
          simp only [Config.tileRows, Config.maxRows] at h3
          exact ⟨shape_ext h1.1 h1.2, h2.1, h2.2, h3.2, by omega⟩
  · rintro ⟨h1, h2, h3, h4, h5⟩
    rw [if_neg (by simp [h1]), if_neg (by omega), if_neg (by simp only [Config.tileRows, Config.maxRows]; omega)]

/-- `narrow8` of a value in [-128, 127] is the int8 of the same mathematical value. -/
theorem narrow8_inRange (strict : Bool) {value : Word} (h : -128 ≤ value.toInt ∧ value.toInt ≤ 127) :
    ∃ b : Byte, narrow8 strict value = .ok b ∧ b.toInt = value.toInt := by
  refine ⟨BitVec.ofInt 8 value.toInt, by simp [narrow8, h], ?_⟩
  rw [BitVec.toInt_ofInt]
  exact Int.bmod_eq_of_le (by omega) (by omega)

theorem narrow8_strict {value : Word} (h : ¬(-128 ≤ value.toInt ∧ value.toInt ≤ 127)) :
    narrow8 true value = .error .outOfRange := by
  simp only [narrow8, if_neg h, if_true]

theorem narrow8_notStrict {value : Word} (h : ¬(-128 ≤ value.toInt ∧ value.toInt ≤ 127)) :
    narrow8 false value = .ok (Config.narrowNonstrict value) := by
  simp only [narrow8, if_neg h, Bool.false_eq_true, if_false]

/-- What `narrow8` can answer: an int8, or `OutOfRange`. -/
theorem narrow8_cases (strict : Bool) (value : Word) :
    (∃ b, narrow8 strict value = .ok b) ∨ narrow8 strict value = .error .outOfRange := by
  unfold narrow8
  split
  · exact .inl ⟨_, rfl⟩
  · split
    · exact .inr rfl
    · exact .inl ⟨_, rfl⟩

/-- A write of a tile shape register takes the shape within the capacity, and raises `DimensionTooLarge` beyond it. -/
theorem tileShapeOfWord_cases (maxCols : Nat) (value : Word) :
    ((shapeOfWord value).rows.toNat ≤ 16 ∧ (shapeOfWord value).cols.toNat ≤ maxCols ∧
        tileShapeOfWord maxCols value = .ok (shapeOfWord value)) ∨
      (((shapeOfWord value).rows.toNat > 16 ∨ (shapeOfWord value).cols.toNat > maxCols) ∧
        tileShapeOfWord maxCols value = .error .dimensionTooLarge) := by
  unfold tileShapeOfWord
  split
  · rename_i h
    exact .inr ⟨h, rfl⟩
  · rename_i h
    push Not at h
    exact .inl ⟨h.1, h.2, rfl⟩

/-! ### Operands -/

/-- The index of an element lies below the size of its space (20_memory.md R41). -/
def elementInRange : Element → Prop
  | .ta i => i < 1024
  | .tb i => i < 1024
  | .acc i => i < 256
  | .f i => i < 4096
  | .k i => i < 4096
  | .v i => i < 64
  | .csr _ => True

/-- What the operands of a format E command can name: an element whose index lies below the size of its space. -/
theorem element_inRange {sp : BitVec 4} {idx : BitVec 12} {e : Element} (h : element sp idx = some e) :
    elementInRange e := by
  unfold element at h
  cases hs : spaceOfCode sp with
  | none => simp [hs] at h
  | some space =>
    rw [hs] at h
    simp only at h
    split at h
    · rename_i hi
      cases space <;> simp only [elementOfSpace, spaceSize, Option.some.injEq, Option.map_eq_some_iff] at h hi <;>
        first
        | (subst h; exact hi)
        | (obtain ⟨r, _, rfl⟩ := h; trivial)
    · cases h

theorem element_ta {idx : BitVec 12} (h : idx.toNat < 1024) : element 1 idx = some (.ta idx.toNat) := by
  simp [element, spaceOfCode, spaceSize, elementOfSpace, h]

theorem element_tb {idx : BitVec 12} (h : idx.toNat < 1024) : element 2 idx = some (.tb idx.toNat) := by
  simp [element, spaceOfCode, spaceSize, elementOfSpace, h]

theorem element_acc {idx : BitVec 12} (h : idx.toNat < 256) : element 3 idx = some (.acc idx.toNat) := by
  simp [element, spaceOfCode, spaceSize, elementOfSpace, h]

theorem element_f {idx : BitVec 12} (h : idx.toNat < 4096) : element 4 idx = some (.f idx.toNat) := by
  simp [element, spaceOfCode, spaceSize, elementOfSpace, h]

theorem element_k {idx : BitVec 12} (h : idx.toNat < 4096) : element 5 idx = some (.k idx.toNat) := by
  simp [element, spaceOfCode, spaceSize, elementOfSpace, h]

theorem element_v {idx : BitVec 12} (h : idx.toNat < 64) : element 6 idx = some (.v idx.toNat) := by
  simp [element, spaceOfCode, spaceSize, elementOfSpace, h]

/-- The pairs of space code and index that name an element (20_memory.md R41). -/
def namesElement (sp idx : Nat) : Prop :=
  (sp = 1 ∨ sp = 2) ∧ idx < 1024 ∨ sp = 3 ∧ idx < 256 ∨ (sp = 4 ∨ sp = 5) ∧ idx < 4096 ∨ sp = 6 ∧ idx < 64 ∨
    sp = 7 ∧ idx < 8

/-- The operands of a format E command name no element exactly when 30_encoding.md R66 (c) or (d) holds of them. -/
theorem element_eq_none (sp : BitVec 4) (idx : BitVec 12) :
    element sp idx = none ↔ ¬namesElement sp.toNat idx.toNat := by
  have key : ∀ (m size : Nat) (o : Option Element), (m < size → o ≠ none) →
      ((if m < size then o else none) = none ↔ size ≤ m) := by
    intro m size o ho
    by_cases h : m < size
    · rw [if_pos h]
      exact ⟨fun h' => absurd h' (ho h), fun h' => absurd h (by omega)⟩
    · rw [if_neg h]
      exact ⟨fun _ => by omega, fun _ => rfl⟩
  unfold element spaceOfCode namesElement
  have hs := sp.isLt
  have hi := idx.isLt
  generalize sp.toNat = n at hs ⊢
  generalize idx.toNat = m at hi ⊢
  interval_cases n <;> try (simp; done)
  · exact (key m 1024 _ (fun _ => by simp [elementOfSpace])).trans (by omega)
  · exact (key m 1024 _ (fun _ => by simp [elementOfSpace])).trans (by omega)
  · exact (key m 256 _ (fun _ => by simp [elementOfSpace])).trans (by omega)
  · exact (key m 4096 _ (fun _ => by simp [elementOfSpace])).trans (by omega)
  · exact (key m 4096 _ (fun _ => by simp [elementOfSpace])).trans (by omega)
  · exact (key m 64 _ (fun _ => by simp [elementOfSpace])).trans (by omega)
  · refine (key m 8 _ ?_).trans (by omega)
    intro h
    interval_cases m <;> simp [elementOfSpace, csrOfNumber]

/-! ### Tiles -/

/-- An operand tile loaded with a matrix reads as that matrix. -/
theorem read_tileOf (x : Matrix8) {r c : Nat} (hr : r < 16) (hc : c < 64) :
    Store.read (tileOf x) (tileIndex r c) = x r c := by
  have h1 : 64 * r + c < 1024 := by omega
  have h2 : (64 * r + c) / 64 = r := by omega
  have h3 : (64 * r + c) % 64 = c := by omega
  simp [tileOf, tileIndex, h1, h2, h3]

/-- TA after the operation of `PLDA i`. -/
theorem loadLeft_taAt (i : Nat) (s : State) {r c : Nat} (hr : r < 16) (hc : c < 64) :
    (loadLeft i s).taAt r c = if r < s.pipeQ ∧ c < s.pipeM then s.fAt c (s.pipeQ * i + r) else 0 := by
  rw [State.taAt, loadLeft_ta, read_tileOf _ hr hc]
  rfl

/-- TB after the operation of `PLDB i`: lane e of dword n of row k holds element (4k+e, n) of the padded partition. -/
theorem loadRight_tbAt (i : Nat) (s : State) {k n e : Nat} (hk : k < 16) (hn : n < 16) (he : e < 4) :
    (loadRight i s).tbAt k (4 * n + e)
      = if 4 * k + e < s.pipeM ∧ n < s.pipeQ then s.kAt (4 * k + e) (s.pipeQ * i + n) else 0 := by
  have h1 : (4 * n + e) % 4 = e := by omega
  have h2 : (4 * n + e) / 4 = n := by omega
  rw [State.tbAt, loadRight_tb, read_tileOf _ hk (by omega)]
  simp only [toTileB, padB, sliceCols, h1, h2]

/-- ACC after the operation of `TZERO`. -/
@[simp] theorem zeroAcc_accAt (s : State) (m n : Nat) : (zeroAcc s).accAt m n = 0 := rfl

theorem length_tmacUpdate (s : State) (m k : Nat) (w : List Word) (n : Nat) :
    (tmacUpdate s m k w n).length = w.length := by
  simp [tmacUpdate]

theorem length_foldl_tmacUpdate (s : State) (m k : Nat) (ns : List Nat) (w : List Word) :
    (ns.foldl (tmacUpdate s m k) w).length = w.length := by
  induction ns generalizing w with
  | nil => rfl
  | cons n rest ih => rw [List.foldl_cons, ih, length_tmacUpdate]

theorem length_foldl_tmacPass (s : State) (m : Nat) (ks : List Nat) (w : List Word) :
    (ks.foldl (tmacPass s m) w).length = w.length := by
  induction ks generalizing w with
  | nil => rfl
  | cons k rest ih => rw [List.foldl_cons, ih, tmacPass, length_foldl_tmacUpdate]

@[simp] theorem length_tmacRow (s : State) (m : Nat) : (tmacRow s m).length = 16 := by
  simp [tmacRow, length_foldl_tmacPass, workingRow]

@[simp] theorem length_tmacResultRow (s : State) (m : Nat) : (tmacResultRow s m).length = 16 := by
  unfold tmacResultRow
  split <;> simp

/-- Rows of equal length laid end to end, read at row m and place n. -/
theorem getD_flatMap_rows (f : Nat → List Word) (hf : ∀ m, (f m).length = 16) (rows m n : Nat) (hm : m < rows)
    (hn : n < 16) : ((List.range rows).flatMap f).getD (16 * m + n) 0 = (f m).getD n 0 := by
  induction rows with
  | zero => omega
  | succ rows ih =>
    have hlen : ((List.range rows).flatMap f).length = 16 * rows := by
      rw [List.length_flatMap, List.map_congr_left (g := fun _ => 16) (fun a _ => hf a)]
      simp [Nat.mul_comm]
    rw [List.range_succ, List.flatMap_append]
    by_cases h : m < rows
    · rw [List.getD_append _ _ _ _ (by omega), ih h]
    · have e : m = rows := by omega
      subst e
      rw [List.getD_append_right _ _ _ _ (by omega), hlen]
      simp

/-- ACC after the operation of `TMAC`: the completed working row below `ACC_SHAPE.ROWS`, zero from there on. -/
theorem tmac_accAt (s : State) {m n : Nat} (hm : m < 16) (hn : n < 16) :
    (tmac s).accAt m n = if m < s.accShape.rows.toNat then (tmacRow s m).getD n 0 else 0 := by
  rw [State.accAt, tmac_acc, Store.read_ofList, accIndex, Config.tileRows,
    getD_flatMap_rows _ (length_tmacResultRow s) 16 m n hm hn]
  unfold tmacResultRow
  split
  · rfl
  · rw [List.getD_eq_getElem?_getD, List.getElem?_replicate]
    split <;> rfl

theorem read_foldl_write (v : Store 32) (base : Nat) (f : Nat → Word) (q j : Nat) :
    Store.read ((List.range q).foldl (fun v k => Store.write v (base + k) (f k)) v) j
      = if base ≤ j ∧ j < base + q then f (j - base) else Store.read v j := by
  induction q with
  | zero => simp
  | succ q ih =>
    rw [List.range_succ, List.foldl_append, List.foldl_cons, List.foldl_nil, Store.read_write, ih]
    by_cases h : j = base + q
    · subst h
      simp
    · rw [if_neg h]
      by_cases h2 : base ≤ j ∧ j < base + q
      · rw [if_pos h2, if_pos (by omega)]
      · rw [if_neg h2, if_neg (by omega)]

/-- V after the operation of `PDIAG i`: segment i holds the diagonal of ACC, everything else is as before. -/
theorem extractDiag_vAt (i : Nat) (s : State) (j : Nat) :
    (extractDiag i s).vAt j
      = if s.pipeQ * i ≤ j ∧ j < s.pipeQ * i + s.pipeQ then s.accAt (j - s.pipeQ * i) (j - s.pipeQ * i) else s.vAt j := by
  simp only [State.vAt, extractDiag_v]
  exact read_foldl_write s.v (s.pipeQ * i) (fun k => s.accAt k k) s.pipeQ j

/-! ### The four pairs -/

@[simp] theorem pairStep_strict (s : State) (i : Nat) : (pairStep s i).strict = s.strict := by
  simp [pairStep]
@[simp] theorem pairStep_status (s : State) (i : Nat) : (pairStep s i).status = s.status := by
  simp [pairStep]
@[simp] theorem pairStep_accShape (s : State) (i : Nat) : (pairStep s i).accShape = s.accShape := by
  simp [pairStep]
@[simp] theorem pairStep_fShape (s : State) (i : Nat) : (pairStep s i).fShape = s.fShape := by
  simp [pairStep]
@[simp] theorem pairStep_kShape (s : State) (i : Nat) : (pairStep s i).kShape = s.kShape := by
  simp [pairStep]
@[simp] theorem pairStep_fmem (s : State) (i : Nat) : (pairStep s i).fmem = s.fmem := by
  simp [pairStep]
@[simp] theorem pairStep_kmem (s : State) (i : Nat) : (pairStep s i).kmem = s.kmem := by
  simp [pairStep]
@[simp] theorem pairStep_pending (s : State) (i : Nat) : (pairStep s i).pending = s.pending := by
  simp [pairStep]
@[simp] theorem pairStep_responses (s : State) (i : Nat) : (pairStep s i).responses = s.responses := by
  simp [pairStep]
@[simp] theorem pairStep_taShape (s : State) (i : Nat) : (pairStep s i).taShape = { rows := 16, cols := 64 } := by
  simp [pairStep]
@[simp] theorem pairStep_tbShape (s : State) (i : Nat) : (pairStep s i).tbShape = { rows := 16, cols := 64 } := by
  simp [pairStep]
@[simp] theorem pairStep_vLen (s : State) (i : Nat) : (pairStep s i).vLen = s.fShape.cols := by
  simp [pairStep]

/-- `HCS` sets `ACC_SHAPE` and does the four pairs in order (41_pipeline.md R116). -/
theorem hadamardColumnSum_eq (s : State) :
    hadamardColumnSum s
      = pairStep (pairStep (pairStep (pairStep { s with accShape := { rows := 16, cols := 16 } } 0) 1) 2) 3 := by
  unfold hadamardColumnSum
  rw [show List.range Config.partitions = [0, 1, 2, 3] from rfl]
  simp only [List.foldl_cons, List.foldl_nil]

@[simp] theorem hadamardColumnSum_strict (s : State) : (hadamardColumnSum s).strict = s.strict := by
  simp [hadamardColumnSum_eq]
@[simp] theorem hadamardColumnSum_status (s : State) : (hadamardColumnSum s).status = s.status := by
  simp [hadamardColumnSum_eq]
@[simp] theorem hadamardColumnSum_fShape (s : State) : (hadamardColumnSum s).fShape = s.fShape := by
  simp [hadamardColumnSum_eq]
@[simp] theorem hadamardColumnSum_kShape (s : State) : (hadamardColumnSum s).kShape = s.kShape := by
  simp [hadamardColumnSum_eq]
@[simp] theorem hadamardColumnSum_fmem (s : State) : (hadamardColumnSum s).fmem = s.fmem := by
  simp [hadamardColumnSum_eq]
@[simp] theorem hadamardColumnSum_kmem (s : State) : (hadamardColumnSum s).kmem = s.kmem := by
  simp [hadamardColumnSum_eq]
@[simp] theorem hadamardColumnSum_pending (s : State) : (hadamardColumnSum s).pending = s.pending := by
  simp [hadamardColumnSum_eq]
@[simp] theorem hadamardColumnSum_responses (s : State) : (hadamardColumnSum s).responses = s.responses := by
  simp [hadamardColumnSum_eq]
@[simp] theorem hadamardColumnSum_taShape (s : State) :
    (hadamardColumnSum s).taShape = { rows := 16, cols := 64 } := by
  simp [hadamardColumnSum_eq]
@[simp] theorem hadamardColumnSum_tbShape (s : State) :
    (hadamardColumnSum s).tbShape = { rows := 16, cols := 64 } := by
  simp [hadamardColumnSum_eq]
@[simp] theorem hadamardColumnSum_accShape (s : State) :
    (hadamardColumnSum s).accShape = { rows := 16, cols := 16 } := by
  simp [hadamardColumnSum_eq]
@[simp] theorem hadamardColumnSum_vLen (s : State) : (hadamardColumnSum s).vLen = s.fShape.cols := by
  simp [hadamardColumnSum_eq]

/-- The operation of `HCS` as an update of the state: it writes the tiles, their shapes, V and `V_LEN`, and nothing
else. -/
theorem hadamardColumnSum_update (s : State) :
    hadamardColumnSum s
      = { s with
          ta := (hadamardColumnSum s).ta, tb := (hadamardColumnSum s).tb, acc := (hadamardColumnSum s).acc
          v := (hadamardColumnSum s).v, vLen := s.fShape.cols
          taShape := { rows := 16, cols := 64 }, tbShape := { rows := 16, cols := 64 }
          accShape := { rows := 16, cols := 16 } } := by
  have h := hadamardColumnSum_taShape s
  have h1 := hadamardColumnSum_tbShape s
  have h2 := hadamardColumnSum_accShape s
  have h3 := hadamardColumnSum_vLen s
  have h4 := hadamardColumnSum_strict s
  have h5 := hadamardColumnSum_status s
  have h6 := hadamardColumnSum_fShape s
  have h7 := hadamardColumnSum_kShape s
  have h8 := hadamardColumnSum_fmem s
  have h9 := hadamardColumnSum_kmem s
  have h10 := hadamardColumnSum_pending s
  have h11 := hadamardColumnSum_responses s
  generalize hadamardColumnSum s = t at h h1 h2 h3 h4 h5 h6 h7 h8 h9 h10 h11 ⊢
  cases t
  simp_all

/-! ### Canonical forms -/

theorem wf_tileOf (x : Matrix8) : Memory.wf 1024 (tileOf x) :=
  Store.wf_tabulate _ _

theorem wf_tmac_acc (s : State) : Store.wf 256 (tmac s).acc := by
  rw [tmac_acc]
  refine Store.wf_ofList _ (Nat.le_of_eq ?_)
  rw [List.length_flatMap, List.map_congr_left (g := fun _ => 16) (fun a _ => length_tmacResultRow s a)]
  simp

theorem wf_foldl_write {v : Store 32} {size : Nat} (h : Store.wf size v) (base : Nat) (f : Nat → Word) (q : Nat)
    (hq : base + q ≤ size) :
    Store.wf size ((List.range q).foldl (fun v k => Store.write v (base + k) (f k)) v) := by
  induction q with
  | zero => exact h
  | succ q ih =>
    rw [List.range_succ, List.foldl_append]
    exact Store.wf_write (ih (by omega)) _ (by omega)

/-- The reset event leaves every storage in its canonical form, whatever it carries. -/
theorem wf_loadContents (contents : Contents) (s : State) :
    Memory.wf 1024 (loadContents contents s).ta ∧ Memory.wf 1024 (loadContents contents s).tb ∧
      Store.wf 256 (loadContents contents s).acc ∧ Memory.wf 4096 (loadContents contents s).fmem ∧
      Memory.wf 4096 (loadContents contents s).kmem ∧ Store.wf 64 (loadContents contents s).v := by
  simp only [loadContents]
  refine ⟨?_, ?_, ?_, ?_, ?_, ?_⟩ <;> exact Store.wf_tabulate _ _

end Sys2Proof.Machine
end

