-- ==== Sys2Proof/Laws/PerInstr.lean ====
section
/-! SUPPORT. Per-instruction laws. `OpcodeRow`: the encoded word of an instruction selects its row of the opcode map. -/

namespace Sys2Proof.Laws

/-- The `mask` column of the opcode map (30_encoding.md R65). -/
def rowMask : Instr → Word
  | .ewr _ _ _ => 0xF0FFF000
  | .erd _ _ => 0xF0FFF000
  | .tzero => 0xFFFFFFFF
  | .tmac => 0xFFFFFFFF
  | .plda _ => 0xFFFFFFFC
  | .pldb _ => 0xFFFFFFFC
  | .pdiag _ => 0xFFFFFFFC
  | .hcs => 0xFFFFFFFF

/-- The `match` column of the opcode map (30_encoding.md R65). -/
def rowMatch : Instr → Word
  | .ewr _ _ _ => 0x10000000
  | .erd _ _ => 0x20000000
  | .tzero => 0x30000000
  | .tmac => 0x40000000
  | .plda _ => 0x50000000
  | .pldb _ => 0x60000000
  | .pdiag _ => 0x70000000
  | .hcs => 0x80000000

/-- The word of the instruction selects its row: `w & mask == match` (30_encoding.md R65). -/
def OpcodeRow.Statement (i : Instr) : Prop :=
  (encode i).cmd &&& rowMask i = rowMatch i

theorem encodeE_selects (op : Word) (sp : BitVec 4) (idx : BitVec 12) :
    encodeE op sp idx &&& 0xF0FFF000 = op &&& 0xF0FFF000 := by
  refine BitVec.eq_of_getLsbD_eq fun j hj => ?_
  interval_cases j <;> simp [encodeE]

theorem encodeP_selects (op : Word) (i : BitVec 2) : encodeP op i &&& 0xFFFFFFFC = op &&& 0xFFFFFFFC := by
  refine BitVec.eq_of_getLsbD_eq fun j hj => ?_
  interval_cases j <;> simp [encodeP]

theorem OpcodeRow.ewr (sp : BitVec 4) (idx : BitVec 12) (value : Word) : OpcodeRow.Statement (.ewr sp idx value) :=
  encodeE_selects 0x10000000 sp idx

theorem OpcodeRow.erd (sp : BitVec 4) (idx : BitVec 12) : OpcodeRow.Statement (.erd sp idx) :=
  encodeE_selects 0x20000000 sp idx

theorem OpcodeRow.tzero : OpcodeRow.Statement .tzero := rfl

theorem OpcodeRow.tmac : OpcodeRow.Statement .tmac := rfl

theorem OpcodeRow.plda (i : BitVec 2) : OpcodeRow.Statement (.plda i) :=
  encodeP_selects 0x50000000 i

theorem OpcodeRow.pldb (i : BitVec 2) : OpcodeRow.Statement (.pldb i) :=
  encodeP_selects 0x60000000 i

theorem OpcodeRow.pdiag (i : BitVec 2) : OpcodeRow.Statement (.pdiag i) :=
  encodeP_selects 0x70000000 i

theorem OpcodeRow.hcs : OpcodeRow.Statement .hcs := rfl

end Sys2Proof.Laws
end

