-- ==== Sys2Proof/Tests/Slice0.lean ====
section
/-! SUPPORT. Small tests of the model on values taken from the spec (95_test_vectors.md), and for every statement of
Certificates/Slice0/Obligations.lean with hypotheses a witness that meets them. -/

namespace Sys2Proof.Tests

open Sys2Proof Sys2Proof.Machine

/-! ### Well-formedness: each operand check refuses an ill-formed command (30_encoding.md R66 (c), (d), (e)) -/

theorem test_wf_space_0 : (Instr.ewr 0 0 0).wellFormed = false ∧ (Instr.erd 0 0).wellFormed = false := by decide

theorem test_wf_space_8 : (Instr.ewr 8 0 0).wellFormed = false ∧ (Instr.erd 15 0).wellFormed = false := by decide

theorem test_wf_idx_ta : (Instr.ewr 1 1024 0).wellFormed = false ∧ (Instr.ewr 1 1023 0).wellFormed = true := by decide

theorem test_wf_idx_tb : (Instr.erd 2 1024).wellFormed = false ∧ (Instr.erd 2 1023).wellFormed = true := by decide

theorem test_wf_idx_acc : (Instr.ewr 3 256 0).wellFormed = false ∧ (Instr.ewr 3 255 0).wellFormed = true := by decide

theorem test_wf_idx_fk : (Instr.ewr 4 4095 0).wellFormed = true ∧ (Instr.erd 5 4095).wellFormed = true := by decide

theorem test_wf_idx_v : (Instr.erd 6 64).wellFormed = false ∧ (Instr.erd 6 63).wellFormed = true := by decide

theorem test_wf_idx_csr : (Instr.erd 7 8).wellFormed = false ∧ (Instr.erd 7 7).wellFormed = true := by decide

theorem test_wf_read_only :
    (Instr.ewr 6 0 0).wellFormed = false ∧ (Instr.ewr 7 1 0).wellFormed = false ∧
      (Instr.ewr 7 7 0).wellFormed = false ∧ (Instr.ewr 7 6 0).wellFormed = true := by decide

/-! ### Decoding: words written bit by bit from 30_encoding.md R61 and R65 -/

/-- Format E: `op` 0001, `sp` 0010 (TB), twelve zeros, `idx` 7 (42_access.md R131). -/
theorem test_decode_ewr :
    decode { cmd := 0b00010010000000000000000000000111, wdata := 0xFFFFFF80 } = .ok (.ewr 2 7 0xFFFFFF80) := by decide

/-- Format E: `op` 0010, `sp` 0110 (V), `idx` 63 (95_test_vectors.md T24). -/
theorem test_decode_erd : decode { cmd := 0b00100110000000000000000000111111, wdata := 9 } = .ok (.erd 6 63) := by decide

theorem test_decode_tzero : decode { cmd := 0b00110000000000000000000000000000, wdata := 1 } = .ok .tzero := by decide

theorem test_decode_tmac : decode { cmd := 0b01000000000000000000000000000000, wdata := 1 } = .ok .tmac := by decide

theorem test_decode_plda : decode { cmd := 0b01010000000000000000000000000011, wdata := 1 } = .ok (.plda 3) := by decide

theorem test_decode_pldb : decode { cmd := 0b01100000000000000000000000000010, wdata := 1 } = .ok (.pldb 2) := by decide

theorem test_decode_pdiag : decode { cmd := 0b01110000000000000000000000000001, wdata := 1 } = .ok (.pdiag 1) := by decide

theorem test_decode_hcs : decode { cmd := 0b10000000000000000000000000000000, wdata := 1 } = .ok .hcs := by decide

/-- The illegal words of 95_test_vectors.md T24. -/
theorem test_decode_illegal :
    ([0x00000000, 0x90000000, 0xF0000000, 0x40000001, 0x30000100, 0x80000002, 0x50000004, 0x10000000, 0x18000000,
        0x11000400, 0x13000100, 0x16000000, 0x26000040, 0x17000001, 0x17000007, 0x27000008, 0x11001000,
        0x24001000] : List Word).all (fun w => !legalCommand { cmd := w, wdata := 0 }) = true := by decide

/-- The legal neighbours of 95_test_vectors.md T24. -/
theorem test_decode_neighbours :
    decode { cmd := 0x50000003, wdata := 0 } = .ok (.plda 3) ∧
      decode { cmd := 0x110003FF, wdata := 5 } = .ok (.ewr 1 1023 5) ∧
      decode { cmd := 0x2600003F, wdata := 0 } = .ok (.erd 6 63) ∧
      decode { cmd := 0x14000FFF, wdata := 5 } = .ok (.ewr 4 4095 5) ∧
      ([0x50000003, 0x110003FF, 0x2600003F, 0x14000FFF] : List Word).all
        (fun w => legalCommand { cmd := w, wdata := 5 }) = true := by decide

/-- The words of the assembler's forms (95_test_vectors.md P1, P4, T18). -/
theorem test_assembler_words :
    encode (asmShape .taShape 2 4) = { cmd := 0x17000002, wdata := 0x00000402 } ∧
      encode (asmShape .kShape 68 64) = { cmd := 0x17000006, wdata := 0x00004044 } ∧
      encode (asmStrict true) = { cmd := 0x17000000, wdata := 1 } ∧
      encode (asmWriteTA 1 3 1) = { cmd := 0x11000043, wdata := 1 } ∧
      encode (asmWriteTB 15 63 1) = { cmd := 0x120003FF, wdata := 1 } ∧
      encode (asmWriteACC 5 0 99) = { cmd := 0x13000050, wdata := 99 } ∧
      encode (asmReadV 63) = { cmd := 0x2600003F, wdata := 0 } := by decide

/-- A row of the opcode table has 32 bits; the operand word above them is 0. -/
theorem test_decodeTableWord :
    decodeTableWord 32 0x10000000 = some (.ewr 0 0 0) ∧ decodeTableWord 32 0x70000002 = some (.pdiag 2) ∧
      decodeTableWord 32 0x70000004 = none := by decide

/-! ### Single steps -/

/-- The state after one command is presented and taken, if there is a next state. -/
def present (cmd wdata : Word) (s : State) : Option State :=
  match step { s with pending := [.command { cmd := cmd, wdata := wdata }] } with
  | .next t => some t
  | _ => none

/-- The tiles and shapes of 95_test_vectors.md P1 before its command 23. -/
def tiles : State :=
  { State.reset with
    taShape := { rows := 2, cols := 4 }, tbShape := { rows := 1, cols := 8 }, accShape := { rows := 2, cols := 2 }
    ta := [(0, 1), (1, 2), (2, 3), (3, 4), (64, -1), (65, -2), (66, -3), (67, -4)]
    tb := [(0, 5), (1, 6), (2, 7), (3, 8), (4, -1), (6, 1), (7, -128)]
    acc := [(2, 7), (80, 99)] }

/-- The matrices of 95_test_vectors.md P2, 4×4. -/
def matrices : State :=
  { State.reset with
    fShape := { rows := 4, cols := 4 }, kShape := { rows := 4, cols := 4 }
    fmem := Store.ofList [1, -2, 3, -4, 5, 6, -7, 8, -128, 127, 0, 1, 2, 2, 2, 2]
    kmem := Store.ofList [1, 1, 1, 1, -1, 2, -3, 4, -128, -128, 5, -1, 10, -10, 100, -100] }

/-- The largest accepted shape, 64×64, every element of F and K -128 (95_test_vectors.md T22 (a)). -/
def extreme : State :=
  { State.reset with
    fShape := { rows := 64, cols := 64 }, kShape := { rows := 64, cols := 64 }
    fmem := Store.tabulate 4096 (fun _ => 0x80), kmem := Store.tabulate 4096 (fun _ => 0x80) }

/-- 42_access.md R131: `EWR TB, 7, -128` sets `TB[0][7]` = -128 and returns status 0. -/
theorem test_ewr_byte :
    (present 0x12000007 0xFFFFFF80 State.reset).map (fun t => (t.tb, t.responses))
      = some ([(7, 0x80)], [{ status := .ok, rdata := 0 }]) := by decide

/-- 95_test_vectors.md P4, commands 1 and 9: `OutOfRange` leaves `STATUS` 0x43, `DimensionTooLarge` 0x22 from reset. -/
theorem test_ewr_errors :
    (present 0x14000000 0x00000080 State.reset).map (fun t => (t.fmem, csrRead t .status)) = some ([], 0x43) ∧
      (present 0x17000002 0x00004011 State.reset).map (fun t => (t.taShape.rows, csrRead t .status))
        = some (0, 0x22) := by decide

/-- 95_test_vectors.md T18: `ERD F, 1` returns -128 sign-extended. -/
theorem test_erd_byte :
    (present 0x24000001 0 { State.reset with fmem := [(1, 0x80)] }).map State.responses
      = some [{ status := .ok, rdata := 0xFFFFFF80 }] := by decide

/-- 95_test_vectors.md P4, command 39: `ERD CSR, STATUS` returns the value before it, then sets `LAST` to 0. -/
theorem test_erd_status :
    (present 0x27000001 0
        { State.reset with
          status := { last := .illegalCommand, smSeen := true, dtlSeen := true, oorSeen := true, illSeen := true } }).map
        (fun t => (t.responses, csrRead t .status))
      = some ([{ status := .ok, rdata := 0xF4 }], 0xF0) := by decide

/-- 40_engine.md R84: after `EWR ACC, 80, 99` then `TZERO`, `ACC[5][0]` is 0. -/
theorem test_tzero : (present 0x30000000 0 tiles).map (fun t => (t.accAt 5 0, t.accAt 0 2)) = some (0, 0) := by decide

/-- 95_test_vectors.md P1, commands 23 to 29. -/
theorem test_tmac :
    (present 0x40000000 0 tiles).map State.acc
      = some [(0, 70), (1, 0xFFFFFE02), (2, 7), (16, 0xFFFFFFBA), (17, 0x000001FE)] := by decide +kernel

/-- 40_engine.md R85 corner case 2: the accumulator wraps and no flag is set. -/
theorem test_tmac_wraps :
    (present 0x40000000 0
        { State.reset with
          taShape := { rows := 1, cols := 4 }, tbShape := { rows := 1, cols := 4 }, accShape := { rows := 1, cols := 1 }
          ta := [(0, 1)], tb := [(0, 1)], acc := [(0, 0x7FFFFFFF)] }).map (fun t => (t.acc, csrRead t .status))
      = some ([(0, 0x80000000)], 0) := by decide +kernel

/-- 95_test_vectors.md T21, i = 2: column 2 of F. -/
theorem test_plda : (present 0x50000002 0 matrices).map State.ta = some [(0, 3), (1, -7), (3, 2)] := by decide +kernel

/-- 95_test_vectors.md T21, i = 3: column 3 of K. -/
theorem test_pldb :
    (present 0x60000003 0 matrices).map State.tb = some [(0, 1), (1, 4), (2, -1), (3, -100)] := by decide +kernel

/-- 41_pipeline.md R114: Q = 2, `ACC[0][0]` = -7, `ACC[1][1]` = 8: `PDIAG 1` sets `V[2]`, `V[3]` and `V_LEN` = 8. -/
theorem test_pdiag :
    (present 0x70000001 0
        { State.reset with
          fShape := { rows := 4, cols := 8 }, kShape := { rows := 4, cols := 8 }
          acc := [(0, -7), (17, 8)] }).map (fun t => (t.v, t.vLen)) = some ([(2, -7), (3, 8)], 8) := by decide

/-- 95_test_vectors.md P4, command 34: `DimensionTooLarge`, V and `V_LEN` unchanged. -/
theorem test_pdiag_rejects :
    (present 0x70000001 0
        { State.reset with
          fShape := { rows := 68, cols := 64 }, kShape := { rows := 68, cols := 64 } }).map
        (fun t => (t.v, t.vLen, t.responses)) = some ([], 0, [{ status := .dimensionTooLarge, rdata := 0 }]) := by decide

/-- 95_test_vectors.md P2: V, `V_LEN` and pair 3's leftover in ACC. -/
theorem test_hcs :
    (present 0x80000000 0 matrices).map (fun t => (t.v, t.vLen, t.acc))
      = some ([(0, 16400), (1, -16266), (2, 224), (3, -173)], 4, [(0, -173)]) := by decide +kernel

/-- 60_exceptions.md R153: shapes that disagree and are too large report `ShapeMismatch`. -/
theorem test_hcs_priority :
    (present 0x80000000 0
        { State.reset with
          fShape := { rows := 66, cols := 64 }, kShape := { rows := 68, cols := 64 } }).map
        (fun t => csrRead t .status) = some 0x11 := by decide

/-- Reset memory has the canonical form. -/
theorem test_reset_wf :
    Memory.wf 1024 State.reset.ta ∧ Memory.wf 1024 State.reset.tb ∧ Store.wf 256 State.reset.acc ∧
      Memory.wf 4096 State.reset.fmem ∧ Memory.wf 4096 State.reset.kmem ∧ Store.wf 64 State.reset.v := by decide

/-- The step after `withFetchWord` runs the command it was given. -/
theorem test_withFetchWord :
    (match step (State.reset.withFetchWord 32 0x70000002) with
      | .next t => t.responses
      | _ => []) = [{ status := .ok, rdata := 0 }] := by decide

/-! ### Witnesses: what meets the hypotheses of each statement -/

/-- The state `s` with one command presented. -/
def withCommand (cmd wdata : Word) (s : State) : State :=
  { s with pending := [.command { cmd := cmd, wdata := wdata }] }

theorem test_witness_StepRunsDecodedCommand :
    (withCommand 0x12000007 0xFFFFFF80 State.reset).pending
        = .command { cmd := 0x12000007, wdata := 0xFFFFFF80 } :: [] ∧
      decode { cmd := 0x12000007, wdata := 0xFFFFFF80 } = .ok (.ewr 2 7 0xFFFFFF80) := by decide

theorem test_witness_EncodeOfDecodedWord :
    decode { cmd := 0x1F000FFF, wdata := 3 } = .ok (.ewr 15 0xFFF 3) ∧
      decode { cmd := 0x80000000, wdata := 3 } = .ok .hcs := by decide

/-- The opcodes at the two ends of the two unused ranges. -/
theorem test_witness_OpcodeMapSelectsRows :
    bits 0x00000000 31 28 = 0 ∧ 9 ≤ bits 0x90000000 31 28 ∧ 9 ≤ bits 0xFFFFFFFF 31 28 ∧
      (0x1F000FFF : Word) &&& 0xF0FFF000 = 0x10000000 ∧ (0x70000003 : Word) &&& 0xFFFFFFFC = 0x70000000 := by decide

/-- One word, or two at the ends of a range, for each of the five tests. -/
theorem test_witness_IllegalWordsAreRefused :
    IllegalWord 0x0FFFFFFF ∧ IllegalWord 0x90000000 ∧ IllegalWord 0xFFFFFFFF ∧ IllegalWord 0x11001000 ∧
      IllegalWord 0x24800000 ∧ IllegalWord 0x50000004 ∧ IllegalWord 0x78000000 ∧ IllegalWord 0x30000001 ∧
      IllegalWord 0x48000000 ∧ IllegalWord 0x10000000 ∧ IllegalWord 0x28000000 ∧ IllegalWord 0x2F000000 ∧
      IllegalWord 0x11000400 ∧ IllegalWord 0x22000FFF ∧ IllegalWord 0x13000100 ∧ IllegalWord 0x26000040 ∧
      IllegalWord 0x27000008 ∧ IllegalWord 0x16000000 ∧ IllegalWord 0x17000001 ∧ IllegalWord 0x17000007 := by
  unfold IllegalWord
  repeat' apply And.intro
  all_goals decide

theorem test_witness_LegalWordsAreCommands :
    ¬IllegalWord 0x110003FF ∧ ¬IllegalWord 0x220003FF ∧ ¬IllegalWord 0x130000FF ∧ ¬IllegalWord 0x14000FFF ∧
      ¬IllegalWord 0x25000FFF ∧ ¬IllegalWord 0x2600003F ∧ ¬IllegalWord 0x27000007 ∧ ¬IllegalWord 0x17000006 ∧
      ¬IllegalWord 0x30000000 ∧ ¬IllegalWord 0x40000000 ∧ ¬IllegalWord 0x50000003 ∧ ¬IllegalWord 0x60000000 ∧
      ¬IllegalWord 0x70000003 ∧ ¬IllegalWord 0x80000000 := by
  unfold IllegalWord
  repeat' apply And.intro
  all_goals decide

/-- An `ERD` that returns a value other than 0, and a command that is not `EWR`. -/
theorem test_witness_OneResponsePerCommand :
    (withCommand 0x27000000 0 State.reset).pending = .command { cmd := 0x27000000, wdata := 0 } :: [] ∧
      bits 0x27000000 31 28 ≠ 1 ∧
      (present 0x27000000 0 State.reset).map State.responses = some [{ status := .ok, rdata := 1 }] := by decide

theorem test_witness_IdleStepKeepsState : State.reset.pending = [] := by decide

/-- A reset event whose contents are not zero, and reads at the last index of each storage. -/
theorem test_witness_ResetEventSetsRegisters :
    ∃ s : State, ∃ contents : Contents, ∃ rest : List HostInput, s.pending = .reset contents :: rest ∧
      Store.read contents.ta 1023 = 5 ∧ Store.read contents.acc 255 = 6 ∧ Store.read contents.fmem 4095 = 7 ∧
      Store.read contents.v 63 = 8 :=
  ⟨{ tiles with
      pending :=
        [.reset { ta := [(1023, 5)], tb := [], acc := [(255, 6)], fmem := [(4095, 7)], kmem := [], v := [(63, 8)] }] },
    { ta := [(1023, 5)], tb := [], acc := [(255, 6)], fmem := [(4095, 7)], kmem := [], v := [(63, 8)] }, [], by decide⟩

theorem test_witness_RegistersStayInRange :
    ∃ s t : State, s.Inv ∧ step s = .next t ∧ t.responses ≠ [] :=
  ⟨{ tiles with pending := [.command { cmd := 0x30000000, wdata := 0 }] }, _, by constructor <;> decide, rfl, by decide⟩

theorem test_witness_StatusKeepsTelling :
    ∃ s t : State, s.StatusTells ∧ step s = .next t ∧ t.responses ≠ [] :=
  ⟨withCommand 0x00000000 0 State.reset, _, by constructor <;> decide, rfl, by decide⟩

/-- A command that fails, and a reset event after an error. -/
theorem test_witness_StatusRegisterBehaves :
    (present 0x00000000 0 State.reset).map (fun t => (t.status.last, t.status.illSeen)) = some (.illegalCommand, true) ∧
      ∃ s t : State, ∃ contents : Contents, ∃ rest : List HostInput, s.pending = .reset contents :: rest ∧
        step s = .next t ∧ s.status.illSeen = true :=
  ⟨by decide,
    { State.reset with
      status := { last := .illegalCommand, smSeen := false, dtlSeen := false, oorSeen := false, illSeen := true }
      pending := [.reset { ta := [], tb := [], acc := [], fmem := [], kmem := [], v := [] }] },
    _, { ta := [], tb := [], acc := [], fmem := [], kmem := [], v := [] }, [], rfl, rfl, rfl⟩

/-- One failing command for each of the four codes: an illegal word, `TMAC` on shapes that do not fit, a shape beyond the
capacity, a value out of range. -/
theorem test_witness_FailingCommandChangesOnlyStatus :
    (present 0x00000000 0 State.reset).map (fun t => t.status.last) = some .illegalCommand ∧
      (present 0x40000000 0 { tiles with tbShape := { rows := 2, cols := 8 } }).map (fun t => t.status.last)
        = some .shapeMismatch ∧
      (present 0x17000004 0x00001110 tiles).map (fun t => t.status.last) = some .dimensionTooLarge ∧
      (present 0x12000007 0xFFFFFF7F tiles).map (fun t => t.status.last) = some .outOfRange := by decide

/-- Two states with other data and the same control and shape registers. -/
theorem test_witness_ChecksIgnoreData :
    ∃ i : Instr, ∃ s u t w : State, s.ta ≠ u.ta ∧ s.strict = u.strict ∧ s.taShape = u.taShape ∧
      s.tbShape = u.tbShape ∧ s.accShape = u.accShape ∧ s.fShape = u.fShape ∧ s.kShape = u.kShape ∧
      exec i s = .next t ∧ exec i u = .next w :=
  ⟨.ewr 1 5 255, tiles, { tiles with ta := [] }, _, _, by decide, rfl, rfl, rfl, rfl, rfl, rfl, rfl, rfl⟩

theorem test_witness_FailedCommandFailsAgain :
    ∃ i : Instr, ∃ s t u : State, exec i s = .next t ∧ t.status.last ≠ .ok ∧ exec i t = .next u :=
  ⟨.ewr 1 5 255, tiles, _, _, rfl, by decide, rfl⟩

/-- A command that changes each piece of state: the accumulator, a byte storage, `CTRL`, each shape, V and `V_LEN`. -/
theorem test_witness_WritersOfEachState :
    (present 0x30000000 0 tiles).map (fun t => t.acc != tiles.acc) = some true ∧
      (present 0x11000005 1 tiles).map (fun t => t.ta != tiles.ta) = some true ∧
      (present 0x12000005 1 tiles).map (fun t => t.tb != tiles.tb) = some true ∧
      (present 0x14000000 9 tiles).map (fun t => t.fmem != tiles.fmem) = some true ∧
      (present 0x15000000 9 tiles).map (fun t => t.kmem != tiles.kmem) = some true ∧
      (present 0x17000000 0 tiles).map (fun t => t.strict != tiles.strict) = some true ∧
      (present 0x17000002 0 tiles).map (fun t => t.taShape != tiles.taShape) = some true ∧
      (present 0x17000003 0 tiles).map (fun t => t.tbShape != tiles.tbShape) = some true ∧
      (present 0x17000004 0 tiles).map (fun t => t.accShape != tiles.accShape) = some true ∧
      (present 0x17000005 1 tiles).map (fun t => t.fShape != tiles.fShape) = some true ∧
      (present 0x17000006 1 tiles).map (fun t => t.kShape != tiles.kShape) = some true ∧
      (present 0x70000001 0 { matrices with acc := [(0, 5)] }).map (fun t => (t.v, t.vLen)) = some ([(1, 5)], 4) := by
  decide

/-- The last index of each space; the two ends of the range and the values next to them; both settings of `STRICT`; and
an `EWR` that raises `OutOfRange`. -/
theorem test_witness_ByteSpaceWrites :
    (1023#12).toNat < 1024 ∧ (4095#12).toNat < 4096 ∧
      (-128 ≤ (0xFFFFFF80#32).toInt ∧ (0xFFFFFF80#32).toInt ≤ 127) ∧ (-128 ≤ (127#32).toInt ∧ (127#32).toInt ≤ 127) ∧
      ¬(-128 ≤ (0xFFFFFF7F#32).toInt ∧ (0xFFFFFF7F#32).toInt ≤ 127) ∧
      ¬(-128 ≤ (128#32).toInt ∧ (128#32).toInt ≤ 127) ∧ State.reset.strict = true ∧
      ({ State.reset with strict := false } : State).strict = false ∧
      ∃ t : State, exec (.ewr 5 4095 128) State.reset = .next t ∧ t.status.last = .outOfRange :=
  ⟨by decide, by decide, by decide, by decide, by decide, by decide, rfl, rfl, _, rfl, rfl⟩

theorem test_witness_AccumulatorWrites : (255#12).toNat < 256 := by decide

/-- Both sides of each limit: rows 16 and 17, columns 64 and 65, for ACC 16 and 17. -/
theorem test_witness_TileShapeWrites :
    bits 0x00004011 7 0 > 16 ∧ bits 0x00004110 15 8 > 64 ∧ bits 0x00001110 15 8 > 16 ∧ bits 0x00004010 7 0 ≤ 16 ∧
      bits 0x00004010 15 8 ≤ 64 ∧ bits 0x00001010 15 8 ≤ 16 := by decide

/-- The last legal index of each space, and the illegal operands next to the legal ones. -/
theorem test_witness_ElementReads :
    (1023#12).toNat < 1024 ∧ (255#12).toNat < 256 ∧ (63#12).toNat < 64 ∧ (7#12).toNat < 8 ∧ (0#4).toNat = 0 ∧
      8 ≤ (8#4).toNat ∧ ((2#4).toNat = 2 ∧ 1024 ≤ (1024#12).toNat) ∧ ((3#4).toNat = 3 ∧ 256 ≤ (256#12).toNat) ∧
      ((6#4).toNat = 6 ∧ 64 ≤ (64#12).toNat) ∧ ((7#4).toNat = 7 ∧ 8 ≤ (8#12).toNat) := by decide

theorem test_witness_ReadBackAfterWrite :
    ((2#4).toNat = 2 ∧ (1023#12).toNat < 1024) ∧ (4#4).toNat = 4 ∧ (5#4).toNat = 5 ∧
      (-128 ≤ (0xFFFFFF80#32).toInt ∧ (127#32).toInt ≤ 127) ∧ (3#4).toNat = 3 ∧ (255#12).toNat < 256 := by decide

/-- The last element of each tile and of V, another element beside it, the two ends of the value range, and for `SHAPE`
both sides of each limit. -/
theorem test_witness_PseudoInstructionsAddress :
    (15 < 16 ∧ 63 < 64 ∧ 62 < 64) ∧ (-128 ≤ (0xFFFFFF80#32).toInt ∧ (0xFFFFFF80#32).toInt ≤ 127) ∧
      (-128 ≤ (127#32).toInt ∧ (127#32).toInt ≤ 127) ∧ (16 < 256 ∧ 64 < 256 ∧ 16 ≤ 16 ∧ 64 ≤ 64) ∧
      (17 < 256 ∧ 65 < 256 ∧ 16 < 17 ∧ 64 < 65) ∧ 255 < 256 := by decide

/-- Words with opcode 3 and bits 27:0 zero and not. -/
theorem test_witness_TzeroClearsAccumulator :
    (bits 0x30000000 31 28 = 3 ∧ bits 0x30000000 27 0 = 0) ∧ bits 0x38000000 31 28 = 3 ∧ bits 0x38000000 27 0 ≠ 0 ∧
      bits 0x30000001 27 0 ≠ 0 := by decide

/-- Full capacity, the shapes after reset, and shapes that fail each of the four tests (95_test_vectors.md T16). -/
theorem test_witness_TmacShapeCheck :
    ({ tiles with
        taShape := { rows := 16, cols := 64 }, tbShape := { rows := 16, cols := 64 }
        accShape := { rows := 16, cols := 16 } } : State).TileShapesFit ∧
      State.reset.TileShapesFit ∧
      ¬({ tiles with
          taShape := { rows := 16, cols := 6 }, tbShape := { rows := 1, cols := 8 }
          accShape := { rows := 16, cols := 2 } } : State).TileShapesFit ∧
      ¬({ tiles with
          taShape := { rows := 16, cols := 8 }, tbShape := { rows := 1, cols := 8 }
          accShape := { rows := 16, cols := 2 } } : State).TileShapesFit ∧
      ¬({ tiles with
          taShape := { rows := 16, cols := 8 }, tbShape := { rows := 2, cols := 6 }
          accShape := { rows := 16, cols := 1 } } : State).TileShapesFit ∧
      ¬({ tiles with
          taShape := { rows := 16, cols := 8 }, tbShape := { rows := 2, cols := 8 }
          accShape := { rows := 16, cols := 3 } } : State).TileShapesFit := by decide

/-- Shapes that fit, a matrix B that TB packs, and a row and a column at each side of the logical extent. -/
theorem test_witness_TmacClosedForm :
    tiles.TileShapesFit ∧
      (∃ B : Nat → Nat → Byte, ∀ k n e, k < tiles.taShape.cols.toNat / 4 → n < tiles.accShape.cols.toNat → e < 4 →
        tiles.tbAt k (4 * n + e) = B (4 * k + e) n) ∧
      (1 < tiles.accShape.rows.toNat ∧ tiles.accShape.rows.toNat ≤ 2) ∧ 1 < tiles.accShape.cols.toNat ∧
      tiles.accShape.cols.toNat ≤ 2 := by
  refine ⟨by decide, ⟨fun j n => tiles.tbAt (j / 4) (4 * n + j % 4), fun k n e _ _ he => ?_⟩, by decide, by decide,
    by decide⟩
  simp only [show (4 * k + e) / 4 = k by omega, show (4 * k + e) % 4 = e by omega]

/-- `TMAC` on shapes that fit completes with the state of its operation. -/
theorem exec_tmac_of_fit {s : State} (h : s.TileShapesFit) : exec .tmac s = .next ((tmac s).thenOk 0) := by
  simp only [exec, execTmac]
  exact finish_preflight_ok (by rw [tmacCheck_eq, if_pos h]) _ _

theorem test_witness_TmacZeroesTrailingRows :
    (∃ s t : State, exec .tmac s = .next t ∧ s.TileShapesFit ∧ s.accShape.rows.toNat ≤ 5 ∧ s.accAt 5 0 ≠ 0) ∧
      ∃ s t : State, exec .tmac s = .next t ∧ ¬s.TileShapesFit :=
  ⟨⟨tiles, _, exec_tmac_of_fit (by decide), by decide, by decide, by decide⟩,
    { tiles with tbShape := { rows := 2, cols := 8 } }, _, rfl, by decide⟩

theorem test_witness_TmacKeepsTrailingColumns :
    ∃ s t : State, exec .tmac s = .next t ∧ 0 < s.accShape.rows.toNat ∧ s.accShape.cols.toNat ≤ 2 ∧ s.accAt 0 2 ≠ 0 :=
  ⟨tiles, _, exec_tmac_of_fit (by decide), by decide, by decide, by decide⟩

/-- `tiles` with another `TA_SHAPE.ROWS`, a byte of TA beyond the region and a row of ACC beyond it changed. -/
def otherTiles : State :=
  { tiles with
    taShape := { rows := 9, cols := 4 }
    ta := [(0, 1), (1, 2), (2, 3), (3, 4), (4, 77), (64, -1), (65, -2), (66, -3), (67, -4)], acc := [(2, 7)] }

theorem test_witness_TmacReadsOnlyItsRegion :
    ∃ s u t w : State, s.TileShapesFit ∧ s.taShape.cols = u.taShape.cols ∧ s.tbShape = u.tbShape ∧
      s.accShape = u.accShape ∧
      (∀ r j, r < s.accShape.rows.toNat → j < s.taShape.cols.toNat → s.taAt r j = u.taAt r j) ∧
      (∀ k c, k < s.tbShape.rows.toNat → c < s.tbShape.cols.toNat → s.tbAt k c = u.tbAt k c) ∧
      (∀ r n, r < s.accShape.rows.toNat → n < 16 → s.accAt r n = u.accAt r n) ∧
      exec .tmac s = .next t ∧ exec .tmac u = .next w ∧ s.ta ≠ u.ta ∧ s.acc ≠ u.acc ∧ s.taShape ≠ u.taShape := by
  have h1 : ∀ r, r < tiles.accShape.rows.toNat → ∀ j, j < tiles.taShape.cols.toNat →
      tiles.taAt r j = otherTiles.taAt r j := by decide
  have h2 : ∀ r, r < tiles.accShape.rows.toNat → ∀ n, n < 16 → tiles.accAt r n = otherTiles.accAt r n := by decide
  exact ⟨tiles, otherTiles, _, _, by decide, rfl, rfl, rfl, fun r j hr hj => h1 r hr j hj, fun _ _ _ _ => rfl,
    fun r n hr hn => h2 r hr n hn, exec_tmac_of_fit (by decide), exec_tmac_of_fit (by decide), by decide, by decide,
    by decide⟩

/-- The accepted shapes at both ends, and shapes that fail each test: different, M or N not a multiple of 4, N/4 above
16, M above 64. -/
theorem test_witness_PipelineShapeCheck :
    extreme.fShape = { rows := 64, cols := 64 } ∧ State.reset.PipeShapesFit ∧ matrices.PipeShapesFit ∧
      ({ matrices with kShape := { rows := 4, cols := 8 } } : State).fShape ≠ { rows := 4, cols := 8 } ∧
      (30#8).toNat % 4 ≠ 0 ∧ (62#8).toNat % 4 ≠ 0 ∧ (68#8).toNat % 4 = 0 ∧ (68#8).toNat / 4 > 16 ∧
      (68#8).toNat > 64 := by decide

theorem extreme_fits : extreme.PipeShapesFit := ⟨rfl, by decide, by decide, by decide, by decide⟩

/-- Shapes that fit, elements of the tile inside and outside the partition, and words with opcode 5 of both kinds. -/
theorem test_witness_PldaLoadsLeftPartition :
    matrices.PipeShapesFit ∧ extreme.PipeShapesFit ∧ (0 < matrices.fShape.cols.toNat / 4 ∧ 3 < matrices.fShape.rows.toNat) ∧
      ¬(1 < matrices.fShape.cols.toNat / 4) ∧ bits 0x50000003 31 28 = 5 ∧ bits 0x50000003 27 2 = 0 ∧
      bits 0x50000004 31 28 = 5 ∧ bits 0x50000004 27 2 ≠ 0 :=
  ⟨by decide, extreme_fits, by decide, by decide, by decide, by decide, by decide, by decide⟩

/-- Shapes that fit, elements of the tile inside and outside the partition, and words with opcode 6 of both kinds. -/
theorem test_witness_PldbLoadsRightPartition :
    matrices.PipeShapesFit ∧ extreme.PipeShapesFit ∧ (4 * 0 + 3 < matrices.kShape.rows.toNat ∧ 0 < matrices.kShape.cols.toNat / 4) ∧
      ¬(4 * 1 + 0 < matrices.kShape.rows.toNat) ∧ bits 0x60000003 31 28 = 6 ∧ bits 0x60000003 27 2 = 0 ∧
      bits 0x68000000 31 28 = 6 ∧ bits 0x68000000 27 2 ≠ 0 :=
  ⟨by decide, extreme_fits, by decide, by decide, by decide, by decide, by decide, by decide⟩

/-- Shapes that fit, indices of V in the last segment and before it, and words with opcode 7 of both kinds. -/
theorem test_witness_PdiagExtractsDiagonal :
    matrices.PipeShapesFit ∧ extreme.PipeShapesFit ∧ 0 < matrices.fShape.cols.toNat / 4 ∧
      2 < matrices.fShape.cols.toNat / 4 * (3#2).toNat ∧
      matrices.fShape.cols.toNat / 4 * (3#2).toNat + matrices.fShape.cols.toNat / 4 ≤ 4 ∧ bits 0x70000003 31 28 = 7 ∧
      bits 0x70000003 27 2 = 0 ∧ bits 0x70000004 31 28 = 7 ∧ bits 0x70000004 27 2 ≠ 0 :=
  ⟨by decide, extreme_fits, by decide, by decide, by decide, by decide, by decide, by decide, by decide⟩

theorem test_witness_StepwisePairProduct :
    ({ matrices with accShape := { rows := 16, cols := 16 } } : State).PipeShapesFit ∧
      ({ matrices with accShape := { rows := 16, cols := 16 } } : State).accShape = { rows := 16, cols := 16 } := by
  decide

/-- `PLDA i` on shapes that fit completes with the state of its operation. -/
theorem exec_plda_of_fit {s : State} (i : BitVec 2) (h : s.PipeShapesFit) :
    exec (.plda i) s = .next ((loadLeft i.toNat s).thenOk 0) := by
  simp only [exec, execPlda]
  exact finish_preflight_ok ((pipeCheck_eq_ok s).mpr h) _ _

/-- `PLDB i` on shapes that fit completes with the state of its operation. -/
theorem exec_pldb_of_fit {s : State} (i : BitVec 2) (h : s.PipeShapesFit) :
    exec (.pldb i) s = .next ((loadRight i.toNat s).thenOk 0) := by
  simp only [exec, execPldb]
  exact finish_preflight_ok ((pipeCheck_eq_ok s).mpr h) _ _

/-- `HCS` on shapes that fit completes with the state of its operation. -/
theorem exec_hcs_of_fit {s : State} (h : s.PipeShapesFit) : exec .hcs s = .next ((hadamardColumnSum s).thenOk 0) := by
  simp only [exec, execHcs]
  exact finish_preflight_ok ((pipeCheck_eq_ok s).mpr h) _ _

/-- The smallest tile shapes that cover the loaded partitions of the 4×4 matrices: (1,4), (1,4), (1,1). -/
theorem test_witness_PaddingIsNeutral :
    ∃ s t1 t2 t3 : State, ∃ i : BitVec 2, ∃ a b d : Shape, s.PipeShapesFit ∧ exec (.plda i) s = .next t1 ∧
      exec (.pldb i) t1 = .next t2 ∧ exec .tzero t2 = .next t3 ∧
      State.TileShapesFit { t3 with taShape := a, tbShape := b, accShape := d } ∧
      s.fShape.rows.toNat ≤ a.cols.toNat ∧ a.cols.toNat ≤ 64 ∧ s.fShape.cols.toNat / 4 ≤ d.rows.toNat ∧
      d.rows.toNat ≤ 16 ∧ s.fShape.cols.toNat / 4 ≤ d.cols.toNat ∧ d.cols.toNat ≤ 16 := by
  have h : matrices.PipeShapesFit := by decide
  have h1 : ((loadLeft 0 matrices).thenOk 0).PipeShapesFit := h
  refine ⟨matrices, _, _, _, 0, { rows := 1, cols := 4 }, { rows := 1, cols := 4 }, { rows := 1, cols := 1 }, h,
    exec_plda_of_fit 0 h, exec_pldb_of_fit 0 h1, rfl, ?_, by decide, by decide, by decide, by decide, by decide,
    by decide⟩
  simp only [State.TileShapesFit]
  decide

theorem test_witness_HcsEndState :
    matrices.PipeShapesFit ∧ State.reset.PipeShapesFit ∧ 3 < matrices.fShape.cols.toNat ∧
      matrices.fShape.cols.toNat ≤ 4 := by decide

theorem test_witness_HcsEqualsStepwise :
    ({ matrices with pending := stepwiseHcs ++ [] } : State).PipeShapesFit ∧
      ({ matrices with pending := stepwiseHcs ++ [] } : State).pending = stepwiseHcs ++ [] :=
  ⟨by decide, rfl⟩

theorem test_witness_HcsComputesColumnSums : matrices.PipeShapesFit ∧ 3 < matrices.fShape.cols.toNat := by decide

/-- The shapes of both clauses; the second's elements are all -128. -/
theorem test_witness_HcsResultRange :
    (∃ s t : State, s.PipeShapesFit ∧ exec .hcs s = .next t) ∧
      ∃ s t : State, s.fShape = { rows := 64, cols := 64 } ∧ s.kShape = { rows := 64, cols := 64 } ∧
        (∀ j, j < 4096 → Store.read s.fmem j = 0x80 ∧ Store.read s.kmem j = 0x80) ∧ exec .hcs s = .next t := by
  refine ⟨⟨matrices, _, by decide, exec_hcs_of_fit (by decide)⟩, extreme, _, rfl, rfl, fun j hj => ?_,
    exec_hcs_of_fit extreme_fits⟩
  simp [extreme, hj]

/-- Two states with the same matrices and other tiles, accumulator and V. -/
theorem test_witness_HcsDependsOnMatricesOnly :
    ∃ s u t w : State, s.PipeShapesFit ∧ s.fShape = u.fShape ∧ s.kShape = u.kShape ∧
      (∀ r c, r < s.fShape.rows.toNat → c < s.fShape.cols.toNat → s.fAt r c = u.fAt r c ∧ s.kAt r c = u.kAt r c) ∧
      exec .hcs s = .next t ∧ exec .hcs u = .next w ∧ s.acc ≠ u.acc ∧ s.v ≠ u.v :=
  ⟨matrices, { matrices with acc := [(0, 9)], v := [(1, 9)], ta := [(7, 1)] }, _, _, by decide, rfl, rfl,
    fun _ _ _ _ => ⟨rfl, rfl⟩, exec_hcs_of_fit (by decide), exec_hcs_of_fit (by decide), by decide, by decide⟩

end Sys2Proof.Tests
end

section
/-! PROOFS. How `STATUS` behaves (10_state.md R21): what a command can do to the record it is answered in, the layout of
the register, and the statement about both. -/

namespace Sys2Proof.Machine

/-! ### What a command leaves unchanged until it completes -/

/-- `u` has the two ports and the `STATUS` of `s`: what only the end of a command changes. -/
structure State.SameRecord (s u : State) : Prop where
  status : u.status = s.status
  pending : u.pending = s.pending
  responses : u.responses = s.responses

theorem State.SameRecord.hadamardColumnSum (s : State) : s.SameRecord (hadamardColumnSum s) :=
  ⟨hadamardColumnSum_status s, hadamardColumnSum_pending s, hadamardColumnSum_responses s⟩

/-- A checked write that succeeds is the write of some value. -/
theorem exists_ok_of_map_eq_ok {α : Type} {check : Except StatusCode α} {store : α → State} {u : State}
    (h : check.map store = .ok u) : ∃ a, store a = u := by
  cases check with
  | ok a => exact ⟨a, Except.ok.inj h⟩
  | error code => cases h

theorem csrWrite_sameRecord {s u : State} {r : Csr} {value : Word} (h : csrWrite s r value = .ok u) :
    s.SameRecord u := by
  cases r with
  | status | vLen => cases h
  | ctrl | fShape | kShape =>
    cases h
    exact ⟨rfl, rfl, rfl⟩
  | taShape | tbShape | accShape =>
    obtain ⟨shape, rfl⟩ := exists_ok_of_map_eq_ok h
    exact ⟨rfl, rfl, rfl⟩

theorem writeElement_sameRecord {s u : State} {e : Element} {value : Word} (h : writeElement s e value = .ok u) :
    s.SameRecord u := by
  cases e with
  | ta i | tb i | f i | k i =>
    obtain ⟨b, rfl⟩ := exists_ok_of_map_eq_ok h
    exact ⟨rfl, rfl, rfl⟩
  | acc i =>
    cases h
    exact ⟨rfl, rfl, rfl⟩
  | v i => cases h
  | csr r => exact csrWrite_sameRecord h

/-! ### How a command can end -/

/-- The two ends of a command taken in `s`: success after an effect that touches neither ports nor `STATUS`, or an error
raised in `s` itself (30_encoding.md R60; 60_exceptions.md R156). -/
inductive State.Completes (s : State) : State → Prop
  | ok {u : State} (rdata : Word) (same : s.SameRecord u) : s.Completes (u.thenOk rdata)
  | raised (code : StatusCode) : s.Completes (raise code s)

theorem finish_completes {result : Except StatusCode State} {s t : State} (h : finish result s = .next t)
    (same : ∀ u, result = .ok u → s.SameRecord u) : s.Completes t := by
  obtain ⟨u, hu, rfl⟩ | ⟨code, -, rfl⟩ := finish_eq_next.mp h
  · exact .ok 0 (same u hu)
  · exact .raised code

theorem finish_preflight_completes {check : StatusCode} {effect s t : State}
    (h : finish (preflight check effect) s = .next t) (same : s.SameRecord effect) : s.Completes t := by
  obtain ⟨-, rfl⟩ | ⟨-, rfl⟩ := finish_preflight_eq_next.mp h
  · exact .ok 0 same
  · exact .raised check

theorem execEwr_completes {sp : BitVec 4} {idx : BitVec 12} {value : Word} {s t : State}
    (h : execEwr sp idx value s = .next t) : s.Completes t := by
  unfold execEwr at h
  cases he : element sp idx with
  | none =>
    rw [he] at h
    cases h
    exact .raised .illegalCommand
  | some e =>
    rw [he] at h
    exact finish_completes h fun _ => writeElement_sameRecord

theorem execErd_completes {sp : BitVec 4} {idx : BitVec 12} {s t : State} (h : execErd sp idx s = .next t) :
    s.Completes t := by
  unfold execErd at h
  cases he : element sp idx with
  | none =>
    rw [he] at h
    cases h
    exact .raised .illegalCommand
  | some e =>
    rw [he] at h
    cases h
    exact .ok (readElement s e) ⟨rfl, rfl, rfl⟩

/-- Every instruction that answers a next state has completed in one of the two ways. -/
theorem exec_completes {i : Instr} {s t : State} (h : exec i s = .next t) : s.Completes t := by
  cases i with
  | ewr sp idx value => exact execEwr_completes h
  | erd sp idx => exact execErd_completes h
  | tzero =>
    cases h
    exact .ok 0 ⟨rfl, rfl, rfl⟩
  | tmac | plda p | pldb p | pdiag p => exact finish_preflight_completes h ⟨rfl, rfl, rfl⟩
  | hcs => exact finish_preflight_completes h (.hadamardColumnSum s)

/-- Every command word that answers has completed in one of the two ways, a word that selects no row of the opcode map
included. -/
theorem execCommand_completes {c : Command} {s t : State} (h : execCommand c s = .next t) : s.Completes t := by
  unfold execCommand at h
  cases hd : decode c with
  | ok i =>
    rw [hd] at h
    exact exec_completes h
  | error e =>
    rw [hd] at h
    cases h
    exact .raised .illegalCommand

/-- A completed command has given one response, and `STATUS` has recorded the code of that response. -/
theorem State.Completes.response {s t : State} (h : s.Completes t) :
    ∃ r : Response, t.responses = s.responses ++ [r] ∧ t.status = recordStatus r.status s.status := by
  cases h with
  | @ok u rdata same =>
    refine ⟨{ status := .ok, rdata := rdata }, ?_, ?_⟩
    · rw [thenOk_responses, same.responses]
    · rw [thenOk_status, same.status]
      rfl
  | raised code => exact ⟨{ status := code, rdata := 0 }, raise_responses code s, raise_status code s⟩

/-! ### Steps -/

theorem step_of_command {s : State} {c : Command} {rest : List HostInput} (h : s.pending = .command c :: rest) :
    step s = execCommand c { s with pending := rest } := by
  simp only [step, h]

theorem step_of_reset {s : State} {contents : Contents} {rest : List HostInput}
    (h : s.pending = .reset contents :: rest) : step s = .next (afterReset contents rest) := by
  simp only [step, h]

/-! ### `STATUS` as a register -/

theorem element_csr_status : element 7 1 = some (.csr .status) := rfl

/-- `ERD` of `STATUS` returns the register as it was before the command (10_state.md R21). -/
theorem exec_erd_status (s : State) : exec (.erd 7 1) s = .next (s.thenOk (statusWord s.status)) := by
  simp only [exec, execErd, element_csr_status, readElement, csrRead, respond_ok]

theorem exec_ewr_status (s : State) (value : Word) : exec (.ewr 7 1 value) s = .next s.thenIllegal := by
  simp only [exec, execEwr, element_csr_status, writeElement, csrWrite, finish_error, raise_illegalCommand]

/-- Concatenation puts the left word above the `n` bits of the right one. -/
theorem toNat_append_eq {m n : Nat} (x : BitVec m) (y : BitVec n) : (x ++ y).toNat = 2 ^ n * x.toNat + y.toNat := by
  rw [BitVec.toNat_append, ← Nat.shiftLeft_add_eq_or_of_lt y.isLt, Nat.shiftLeft_eq, Nat.mul_comm]

theorem toNat_codeBits (code : StatusCode) : (codeBits code).toNat = statusNumber code := by
  cases code <;> rfl

theorem statusNumber_lt (code : StatusCode) : statusNumber code < 8 := by
  cases code <;> decide

theorem toNat_statusWord (st : Status) :
    (statusWord st).toNat
      = statusNumber st.last + 16 * st.smSeen.toNat + 32 * st.dtlSeen.toNat + 64 * st.oorSeen.toNat
        + 128 * st.illSeen.toNat := by
  simp only [statusWord, toNat_append_eq, BitVec.toNat_ofBool, toNat_codeBits, BitVec.toNat_ofNat]
  omega

theorem isStatusWord_statusWord (st : Status) : IsStatusWord st (statusWord st) := by
  have hcode := statusNumber_lt st.last
  have hsm := st.smSeen.toNat_lt
  have hdtl := st.dtlSeen.toNat_lt
  have hoor := st.oorSeen.toNat_lt
  have hill := st.illSeen.toNat_lt
  simp only [IsStatusWord, bits, toNat_statusWord]
  omega

/-- Settles O17: every command completes with one response whose code `STATUS` records, and the reading, the refused
writing and the clearing of the register are one equation each. -/
theorem statusRegisterBehaves : Obligations.StatusRegisterBehaves := by
  unfold Obligations.StatusRegisterBehaves
  refine ⟨fun s t c rest hp h => ?_, fun s => ⟨_, exec_erd_status s, isStatusWord_statusWord s.status⟩,
    exec_ewr_status, fun s t contents rest hp h => ?_⟩
  · rw [step_of_command hp] at h
    obtain ⟨r, hresponses, hstatus⟩ := (execCommand_completes h).response
    exact ⟨r, hresponses, hstatus ▸ recordStatus_fields r.status s.status⟩
  · rw [step_of_reset hp] at h
    cases h
    rfl

end Sys2Proof.Machine
end

section
/-! PROOFS. Legal and illegal command words (30_encoding.md R61 to R67): the fields of a word as the spec's bit ranges,
what the decoder answers, which operands are legal, and that the five tests of R66 are exactly the model's refusals. -/

namespace Sys2Proof.Machine

/-! ### The fields of a word -/

theorem toNat_extractLsb'_eq_bits (w : Word) (lo n : Nat) :
    (w.extractLsb' lo (n + 1)).toNat = bits w (lo + n) lo := by
  rw [BitVec.extractLsb'_toNat, Nat.shiftRight_eq_div_pow, bits, Nat.add_sub_cancel_left]

theorem toNat_opField (w : Word) : (opField w).toNat = bits w 31 28 := toNat_extractLsb'_eq_bits w 28 3

theorem toNat_spField (w : Word) : (spField w).toNat = bits w 27 24 := toNat_extractLsb'_eq_bits w 24 3

theorem toNat_idxField (w : Word) : (idxField w).toNat = bits w 11 0 := toNat_extractLsb'_eq_bits w 0 11

theorem extractLsb'_beq_zero (w : Word) (lo n : Nat) :
    (w.extractLsb' lo (n + 1) == 0) = true ↔ bits w (lo + n) lo = 0 := by
  rw [beq_iff_eq, ← BitVec.toNat_inj, toNat_extractLsb'_eq_bits, BitVec.ofNat_eq_ofNat, BitVec.toNat_ofNat,
    Nat.zero_mod]

/-! ### What the decoder answers -/

theorem ifReservedZero_eq_ok {reservedZero : Bool} {i j : Instr} :
    ifReservedZero reservedZero i = .ok j ↔ reservedZero = true ∧ j = i := by
  cases reservedZero <;> simp [ifReservedZero, eq_comm]

theorem ifReservedZero_formatE {w : Word} {i j : Instr} :
    ifReservedZero (w.extractLsb' 12 12 == 0) i = .ok j ↔ bits w 23 12 = 0 ∧ j = i :=
  ifReservedZero_eq_ok.trans (and_congr_left' (extractLsb'_beq_zero w 12 11))

theorem ifReservedZero_formatP {w : Word} {i j : Instr} :
    ifReservedZero (w.extractLsb' 2 26 == 0) i = .ok j ↔ bits w 27 2 = 0 ∧ j = i :=
  ifReservedZero_eq_ok.trans (and_congr_left' (extractLsb'_beq_zero w 2 25))

theorem ifReservedZero_formatZ {w : Word} {i j : Instr} :
    ifReservedZero (w.extractLsb' 0 28 == 0) i = .ok j ↔ bits w 27 0 = 0 ∧ j = i :=
  ifReservedZero_eq_ok.trans (and_congr_left' (extractLsb'_beq_zero w 0 27))

/-- The eight rows of the opcode map (30_encoding.md R65): the decoder answers an instruction exactly for the words with
the row's opcode and the reserved bits of its format zero, and then with the operands of the word's fields. -/
theorem decode_eq_ok_iff {c : Command} {i : Instr} :
    decode c = .ok i ↔
      (bits c.cmd 31 28 = 1 ∧ bits c.cmd 23 12 = 0 ∧ i = .ewr (spField c.cmd) (idxField c.cmd) c.wdata) ∨
      (bits c.cmd 31 28 = 2 ∧ bits c.cmd 23 12 = 0 ∧ i = .erd (spField c.cmd) (idxField c.cmd)) ∨
      (bits c.cmd 31 28 = 3 ∧ bits c.cmd 27 0 = 0 ∧ i = .tzero) ∨
      (bits c.cmd 31 28 = 4 ∧ bits c.cmd 27 0 = 0 ∧ i = .tmac) ∨
      (bits c.cmd 31 28 = 5 ∧ bits c.cmd 27 2 = 0 ∧ i = .plda (partField c.cmd)) ∨
      (bits c.cmd 31 28 = 6 ∧ bits c.cmd 27 2 = 0 ∧ i = .pldb (partField c.cmd)) ∨
      (bits c.cmd 31 28 = 7 ∧ bits c.cmd 27 2 = 0 ∧ i = .pdiag (partField c.cmd)) ∨
      (bits c.cmd 31 28 = 8 ∧ bits c.cmd 27 0 = 0 ∧ i = .hcs) := by
  unfold decode
  rw [toNat_opField]
  generalize bits c.cmd 31 28 = op
  split
  case h_9 => simp_all
  all_goals
    simp only [ifReservedZero_formatE, ifReservedZero_formatP, ifReservedZero_formatZ]
    simp

theorem legalCommand_iff_decode {c : Command} :
    legalCommand c = true ↔ ∃ i, decode c = .ok i ∧ i.wellFormed = true := by
  unfold legalCommand
  cases decode c <;> simp

/-! ### Which operands are legal -/

theorem spaceOfCode_eq_some {sp : BitVec 4} {space : Space} : spaceOfCode sp = some space ↔ sp = spaceCode space := by
  revert sp
  cases space <;> decide

/-- The codes and indices of V, `STATUS` and `V_LEN`, which the host may not write (30_encoding.md R66 (e)). -/
def namesReadOnly (sp idx : Nat) : Prop := sp = 6 ∨ sp = 7 ∧ (idx = 1 ∨ idx = 7)

theorem hostWritable_csrOfNumber {n : Nat} {r : Csr} (h : csrOfNumber n = some r) :
    hostWritable (.csr r) = true ↔ ¬(n = 1 ∨ n = 7) := by
  unfold csrOfNumber at h
  split at h <;> cases h <;> decide

theorem hostWritable_element {sp : BitVec 4} {idx : BitVec 12} {e : Element} (h : element sp idx = some e) :
    hostWritable e = true ↔ ¬namesReadOnly sp.toNat idx.toNat := by
  unfold element at h
  cases hs : spaceOfCode sp with
  | none =>
    rw [hs] at h
    cases h
  | some space =>
    rw [hs] at h
    obtain ⟨-, h⟩ := Option.ite_none_right_eq_some.mp h
    rw [spaceOfCode_eq_some] at hs
    subst hs
    cases space with
    | csr =>
      obtain ⟨r, hr, rfl⟩ := Option.map_eq_some_iff.mp h
      simpa [namesReadOnly, spaceCode] using hostWritable_csrOfNumber hr
    | ta | tb | acc | f | k | v =>
      cases h
      simp [hostWritable, namesReadOnly, spaceCode]

theorem readLegal_iff (sp : BitVec 4) (idx : BitVec 12) :
    readLegal sp idx = true ↔ namesElement sp.toNat idx.toNat := by
  rw [readLegal, Option.isSome_iff_ne_none, Ne, element_eq_none, not_not]

theorem writeLegal_iff_element {sp : BitVec 4} {idx : BitVec 12} :
    writeLegal sp idx = true ↔ ∃ e, element sp idx = some e ∧ hostWritable e = true := by
  unfold writeLegal
  cases element sp idx <;> simp

theorem writeLegal_iff (sp : BitVec 4) (idx : BitVec 12) :
    writeLegal sp idx = true ↔ namesElement sp.toNat idx.toNat ∧ ¬namesReadOnly sp.toNat idx.toNat := by
  have hnone := element_eq_none sp idx
  rw [writeLegal_iff_element]
  cases he : element sp idx with
  | none => simp [hnone.mp he]
  | some e =>
    have hnames : namesElement sp.toNat idx.toNat := by
      by_contra h
      exact absurd (he.symm.trans (hnone.mpr h)) (Option.some_ne_none e)
    simp [hnames, hostWritable_element he]

/-! ### The five tests -/

/-- The legal words by format: a row's opcode, its reserved bits zero, and for format E operands that name an element
which the command may access. -/
theorem legalCommand_iff (c : Command) :
    legalCommand c = true ↔
      (bits c.cmd 31 28 = 1 ∧ bits c.cmd 23 12 = 0 ∧ namesElement (bits c.cmd 27 24) (bits c.cmd 11 0) ∧
        ¬namesReadOnly (bits c.cmd 27 24) (bits c.cmd 11 0)) ∨
      (bits c.cmd 31 28 = 2 ∧ bits c.cmd 23 12 = 0 ∧ namesElement (bits c.cmd 27 24) (bits c.cmd 11 0)) ∨
      ((bits c.cmd 31 28 = 3 ∨ bits c.cmd 31 28 = 4) ∧ bits c.cmd 27 0 = 0) ∨
      ((bits c.cmd 31 28 = 5 ∨ bits c.cmd 31 28 = 6 ∨ bits c.cmd 31 28 = 7) ∧ bits c.cmd 27 2 = 0) ∨
      (bits c.cmd 31 28 = 8 ∧ bits c.cmd 27 0 = 0) := by
  simp only [legalCommand_iff_decode, decode_eq_ok_iff, or_and_right, or_assoc, and_assoc, exists_or, exists_and_left,
    exists_eq_left]
  simp only [Instr.wellFormed, writeLegal_iff, readLegal_iff, toNat_spField, toNat_idxField, and_true]

/-- An element is named unless test (c) or (d) of 30_encoding.md R66 holds. -/
theorem namesElement_iff (sp idx : Nat) :
    namesElement sp idx ↔
      ¬(sp = 0 ∨ 8 ≤ sp) ∧
        ¬((sp = 1 ∨ sp = 2) ∧ 1024 ≤ idx ∨ sp = 3 ∧ 256 ≤ idx ∨ (sp = 4 ∨ sp = 5) ∧ 4096 ≤ idx ∨
          sp = 6 ∧ 64 ≤ idx ∨ sp = 7 ∧ 8 ≤ idx) := by
  unfold namesElement
  by_cases hsp : 8 ≤ sp
  · omega
  · interval_cases sp <;> simp

/-- 30_encoding.md R66 as the spec's five tests and as the model's refusals are the same words. -/
theorem legalCommand_iff_not_illegalWord (c : Command) : legalCommand c = true ↔ ¬IllegalWord c.cmd := by
  have hop : bits c.cmd 31 28 < 16 := toNat_opField c.cmd ▸ (opField c.cmd).isLt
  rw [legalCommand_iff]
  unfold IllegalWord
  generalize bits c.cmd 31 28 = op at hop ⊢
  by_cases hformatE : op = 1 ∨ op = 2
  · obtain rfl | rfl := hformatE <;> simp [namesElement_iff, namesReadOnly, and_assoc]
  · interval_cases op <;> simp at hformatE ⊢

/-! ### Illegal commands -/

theorem csrWrite_of_not_hostWritable {r : Csr} (h : hostWritable (.csr r) = false) (s : State) (value : Word) :
    csrWrite s r value = .error .illegalCommand := by
  cases r with
  | status | vLen => rfl
  | ctrl | taShape | tbShape | accShape | fShape | kShape => cases h

theorem writeElement_of_not_hostWritable {e : Element} (h : hostWritable e = false) (s : State) (value : Word) :
    writeElement s e value = .error .illegalCommand := by
  cases e with
  | v i => rfl
  | csr r => exact csrWrite_of_not_hostWritable h s value
  | ta i | tb i | acc i | f i | k i => cases h

theorem execEwr_of_not_writeLegal {sp : BitVec 4} {idx : BitVec 12} (h : writeLegal sp idx = false) (value : Word)
    (s : State) : execEwr sp idx value s = .next s.thenIllegal := by
  unfold writeLegal at h
  unfold execEwr
  cases he : element sp idx with
  | none => rfl
  | some e =>
    rw [he] at h
    simp only [writeElement_of_not_hostWritable h, finish_error, raise_illegalCommand]

theorem execErd_of_not_readLegal {sp : BitVec 4} {idx : BitVec 12} (h : readLegal sp idx = false) (s : State) :
    execErd sp idx s = .next s.thenIllegal := by
  have hnone : element sp idx = none := by simpa [readLegal] using h
  simp only [execErd, hnone, raise_illegalCommand]

/-- An instruction with illegal operands completes with `IllegalCommand`. -/
theorem exec_of_not_wellFormed {i : Instr} (h : i.wellFormed = false) (s : State) : exec i s = .next s.thenIllegal := by
  cases i with
  | ewr sp idx value => exact execEwr_of_not_writeLegal h value s
  | erd sp idx => exact execErd_of_not_readLegal h s
  | tzero | tmac | plda p | pldb p | pdiag p | hcs => cases h

theorem execCommand_of_not_legal {c : Command} (h : legalCommand c = false) (s : State) :
    execCommand c s = .next s.thenIllegal := by
  unfold legalCommand at h
  unfold execCommand
  cases hd : decode c with
  | ok i =>
    rw [hd] at h
    exact exec_of_not_wellFormed h s
  | error e => rfl

theorem stepsIllegally_of_illegalWord {c : Command} (h : IllegalWord c.cmd) : StepsIllegally c := by
  intro s rest hp
  have hlegal : legalCommand c = false :=
    Bool.eq_false_iff.mpr fun hl => (legalCommand_iff_not_illegalWord c).mp hl h
  rw [step_of_command hp, execCommand_of_not_legal hlegal]

/-- Settles O6: the five tests are the model's refusals, and a refused command steps illegally. -/
theorem illegalWordsAreRefused : Obligations.IllegalWordsAreRefused := by
  unfold Obligations.IllegalWordsAreRefused
  have hop : bits 0 31 28 = 0 := by decide
  exact ⟨fun _ => stepsIllegally_of_illegalWord, hop, .inl (.inl hop)⟩

/-! ### Legal commands never answer `IllegalCommand` -/

/-- The command completes, with a code other than `IllegalCommand`. -/
def CompletesLegally (outcome : Host.Outcome State Fault Refusal) : Prop :=
  ∃ t, outcome = .next t ∧ t.status.last ≠ .illegalCommand

theorem thenOk_completesLegally (s : State) (rdata : Word) : CompletesLegally (.next (s.thenOk rdata)) :=
  ⟨_, rfl, nofun⟩

theorem finish_completesLegally {result : Except StatusCode State} (h : result ≠ .error .illegalCommand) (s : State) :
    CompletesLegally (finish result s) := by
  cases result with
  | ok t => exact thenOk_completesLegally t 0
  | error code =>
    refine ⟨raise code s, rfl, ?_⟩
    rw [raise_status, (recordStatus_fields code s.status).1]
    exact fun hcode => h (congrArg Except.error hcode)

theorem preflight_ne_illegal {check : StatusCode} (h : check ≠ .illegalCommand) (effect : State) :
    preflight check effect ≠ .error .illegalCommand := by
  by_cases hok : check = .ok
  · subst hok
    exact nofun
  · rw [preflight_error hok]
    exact fun he => h (Except.error.inj he)

theorem tmacCheck_ne_illegal (s : State) : tmacCheck s ≠ .illegalCommand := by
  rw [tmacCheck_eq]
  split <;> decide

theorem pipeCheck_ne_illegal (s : State) : pipeCheck s ≠ .illegalCommand := by
  unfold pipeCheck
  repeat' split
  all_goals decide

/-- A command with a pre-flight check never answers `IllegalCommand` when its check does not. -/
theorem finish_preflight_completesLegally {check : StatusCode} (h : check ≠ .illegalCommand) (effect s : State) :
    CompletesLegally (finish (preflight check effect) s) :=
  finish_completesLegally (preflight_ne_illegal h effect) s

theorem map_ne_illegal {α : Type} {check : Except StatusCode α} (h : check ≠ .error .illegalCommand)
    (store : α → State) : check.map store ≠ .error .illegalCommand := by
  cases check with
  | ok a => exact nofun
  | error code => exact fun he => h (congrArg Except.error (Except.error.inj he))

theorem narrow8_ne_illegal (strict : Bool) (value : Word) : narrow8 strict value ≠ .error .illegalCommand := by
  obtain ⟨b, h⟩ | h := narrow8_cases strict value <;> rw [h] <;> exact nofun

theorem tileShapeOfWord_ne_illegal (maxCols : Nat) (value : Word) :
    tileShapeOfWord maxCols value ≠ .error .illegalCommand := by
  obtain ⟨-, -, h⟩ | ⟨-, h⟩ := tileShapeOfWord_cases maxCols value <;> rw [h] <;> exact nofun

theorem csrWrite_ne_illegal {r : Csr} (h : hostWritable (.csr r) = true) (s : State) (value : Word) :
    csrWrite s r value ≠ .error .illegalCommand := by
  cases r with
  | status | vLen => cases h
  | ctrl | fShape | kShape => exact nofun
  | taShape | tbShape | accShape => exact map_ne_illegal (tileShapeOfWord_ne_illegal _ value) _

theorem writeElement_ne_illegal {e : Element} (h : hostWritable e = true) (s : State) (value : Word) :
    writeElement s e value ≠ .error .illegalCommand := by
  cases e with
  | ta i | tb i | f i | k i => exact map_ne_illegal (narrow8_ne_illegal s.strict value) _
  | acc i => exact nofun
  | v i => cases h
  | csr r => exact csrWrite_ne_illegal h s value

theorem execEwr_completesLegally {sp : BitVec 4} {idx : BitVec 12} (h : writeLegal sp idx = true) (value : Word)
    (s : State) : CompletesLegally (execEwr sp idx value s) := by
  obtain ⟨e, he, hw⟩ := writeLegal_iff_element.mp h
  simp only [execEwr, he]
  exact finish_completesLegally (writeElement_ne_illegal hw s value) s

theorem execErd_completesLegally {sp : BitVec 4} {idx : BitVec 12} (h : readLegal sp idx = true) (s : State) :
    CompletesLegally (execErd sp idx s) := by
  obtain ⟨e, he⟩ := Option.isSome_iff_exists.mp h
  simp only [execErd, he]
  exact thenOk_completesLegally s _

/-- An instruction with legal operands completes in every state, never with `IllegalCommand`. -/
theorem exec_completesLegally {i : Instr} (h : i.wellFormed = true) (s : State) : CompletesLegally (exec i s) := by
  cases i with
  | ewr sp idx value => exact execEwr_completesLegally h value s
  | erd sp idx => exact execErd_completesLegally h s
  | tzero => exact thenOk_completesLegally (zeroAcc s) 0
  | tmac => exact finish_preflight_completesLegally (tmacCheck_ne_illegal s) _ s
  | plda p | pldb p | pdiag p | hcs => exact finish_preflight_completesLegally (pipeCheck_ne_illegal s) _ s

/-- Settles O7: a word that meets none of the five tests is a legal command, and legal operands never make an
instruction answer `IllegalCommand`. -/
theorem legalWordsAreCommands : Obligations.LegalWordsAreCommands := by
  unfold Obligations.LegalWordsAreCommands
  intro c h
  obtain ⟨i, hi, hwf⟩ := legalCommand_iff_decode.mp ((legalCommand_iff_not_illegalWord c).mpr h)
  exact ⟨i, hi, hwf, exec_completesLegally hwf⟩

end Sys2Proof.Machine
end

section
/-! PROOFS. The Engine (40_engine.md R80 to R90): `dpbd` as an exact sum taken modulo 2^32, what one completed row of
`tmac()` holds, what `TMAC` answers, and the statements about `dpbd`, `TZERO` and `TMAC`. -/

namespace Sys2Proof.Machine

/-! ### The dot product of two dwords -/

/-- The exact sum of the four products of equal lanes that `dpbd` adds to its accumulator (40_engine.md R80). -/
def Lanes.dot (x y : Lanes) : Int :=
  x.byte0.toInt * y.byte0.toInt + x.byte1.toInt * y.byte1.toInt + x.byte2.toInt * y.byte2.toInt
    + x.byte3.toInt * y.byte3.toInt

theorem dpbd_eq_wrap32 (c : Word) (x y : Lanes) : dpbd c x y = wrap32 (c.toInt + x.dot y) := by
  simp only [dpbd, Lanes.dot, add_assoc]

@[simp] theorem wrap32_toInt (c : Word) : wrap32 c.toInt = c := BitVec.ofInt_toInt

theorem wrap32_add (a b : Int) : wrap32 (a + b) = wrap32 a + wrap32 b := BitVec.ofInt_add a b

/-- Wrapping the accumulator between two updates loses nothing (40_engine.md R81). -/
theorem dpbd_wrap32 (a : Int) (x y : Lanes) : dpbd (wrap32 a) x y = wrap32 (a + x.dot y) := by
  rw [dpbd_eq_wrap32, wrap32_add, wrap32_toInt, wrap32_add]

theorem toInt_wrap32 (a : Int) : ∃ k : Int, (wrap32 a).toInt = a + k * 2 ^ 32 := by
  obtain ⟨k, hk⟩ : ((2 ^ 32 : Nat) : Int) ∣ a.bmod (2 ^ 32) - a := Int.dvd_bmod_sub_self
  refine ⟨k, ?_⟩
  rw [wrap32, BitVec.toInt_ofInt, eq_add_of_sub_eq' hk, mul_comm]
  rfl

theorem toInt_byte_bounds (a : Byte) : -128 ≤ a.toInt ∧ a.toInt ≤ 127 :=
  ⟨BitVec.le_toInt a, Int.le_of_lt_add_one BitVec.toInt_lt⟩

theorem byte_product_bounds (a b : Byte) : -16256 ≤ a.toInt * b.toInt ∧ a.toInt * b.toInt ≤ 16384 := by
  obtain ⟨ha, ha'⟩ := toInt_byte_bounds a
  obtain ⟨hb, hb'⟩ := toInt_byte_bounds b
  constructor <;> nlinarith only [ha, ha', hb, hb']

theorem dot_bounds (x y : Lanes) : -65024 ≤ x.dot y ∧ x.dot y ≤ 65536 := by
  have h0 := byte_product_bounds x.byte0 y.byte0
  have h1 := byte_product_bounds x.byte1 y.byte1
  have h2 := byte_product_bounds x.byte2 y.byte2
  have h3 := byte_product_bounds x.byte3 y.byte3
  unfold Lanes.dot
  omega

/-- Settles O32: `dpbd` wraps an exact sum, whose four products are each bounded by the range of a byte. -/
theorem dotProductOfLanes : Obligations.DotProductOfLanes := by
  unfold Obligations.DotProductOfLanes
  refine ⟨fun c x y => ?_, byte_product_bounds, dot_bounds, by decide⟩
  obtain ⟨k, hk⟩ := toInt_wrap32 (c.toInt + x.dot y)
  exact ⟨k, by rw [dpbd_eq_wrap32, hk]; simp only [Lanes.dot, add_assoc]⟩

/-! ### `TZERO` -/

theorem exec_tzero (s : State) : exec .tzero s = .next ((zeroAcc s).thenOk 0) := rfl

/-- The words with a format Z opcode and a bit of 27:0 set fail the second test of 30_encoding.md R66. -/
theorem stepsIllegally_of_formatZ {c : Command}
    (hop : bits c.cmd 31 28 = 3 ∨ bits c.cmd 31 28 = 4 ∨ bits c.cmd 31 28 = 8)
    (h : bits c.cmd 27 0 ≠ 0) : StepsIllegally c :=
  stepsIllegally_of_illegalWord (.inr (.inl (.inr (.inr ⟨hop, h⟩))))

theorem noOperandFormat_tzero : NoOperandFormat 3 .tzero := fun _ hop =>
  ⟨fun h => decode_eq_ok_iff.mpr (.inr (.inr (.inl ⟨hop, h, rfl⟩))), stepsIllegally_of_formatZ (.inl hop)⟩

/-- Settles O34: the storage after `TZERO` is the one that lists nothing. -/
theorem tzeroClearsAccumulator : Obligations.TzeroClearsAccumulator := by
  unfold Obligations.TzeroClearsAccumulator
  exact ⟨fun s => ⟨[], exec_tzero s, Store.read_nil⟩, noOperandFormat_tzero⟩

/-! ### What `TMAC` answers -/

theorem exec_tmac (s : State) :
    exec .tmac s = .next (if s.TileShapesFit then (tmac s).thenOk 0 else s.thenShapeMismatch) := by
  change finish (preflight (tmacCheck s) (tmac s)) s = _
  rw [tmacCheck_eq]
  split <;> rfl

/-- Settles O35: `TMAC` answers by whether the shapes fit, and `tmac()` writes only ACC. -/
theorem tmacShapeCheck : Obligations.TmacShapeCheck := by
  unfold Obligations.TmacShapeCheck
  intro s
  constructor
  · intro hfit
    exact ⟨(tmac s).acc, by rw [exec_tmac, if_pos hfit]; rfl⟩
  · intro hmisfit
    rw [exec_tmac, if_neg hmisfit]

/-- The only two ways `TMAC` can end. -/
theorem exec_tmac_eq_next {s t : State} (h : exec .tmac s = .next t) :
    (s.TileShapesFit ∧ t = (tmac s).thenOk 0) ∨ (¬s.TileShapesFit ∧ t = s.thenShapeMismatch) := by
  rw [exec_tmac] at h
  injection h with ht
  split at ht
  case isTrue hfit => exact .inl ⟨hfit, ht.symm⟩
  case isFalse hmisfit => exact .inr ⟨hmisfit, ht.symm⟩

@[simp] theorem thenShapeMismatch_acc (s : State) : s.thenShapeMismatch.acc = s.acc := rfl

@[simp] theorem thenShapeMismatch_accAt (s : State) : s.thenShapeMismatch.accAt = s.accAt := accAt_congr rfl

/-! ### The closed form of `tmac()` -/

theorem getD_tmacUpdate (s : State) (m k i n : Nat) {w : List Word} (hn : n < w.length) :
    (tmacUpdate s m k w i).getD n 0
      = if i = n then dpbd (w.getD n 0) (taDword s m k) (tbDword s k n) else w.getD n 0 := by
  simp only [tmacUpdate, List.getD_eq_getElem?_getD, List.getElem?_set]
  split
  case isTrue h => subst h; simp [hn]
  case isFalse => rfl

/-- Step 1b for the columns below `cols`: each of them is updated once, the others not at all. -/
theorem getD_foldl_tmacUpdate (s : State) (m k cols : Nat) {w : List Word} {n : Nat} (hn : n < w.length) :
    ((List.range cols).foldl (tmacUpdate s m k) w).getD n 0
      = if n < cols then dpbd (w.getD n 0) (taDword s m k) (tbDword s k n) else w.getD n 0 := by
  induction cols with
  | zero => simp
  | succ cols ih =>
    rw [List.range_succ, List.foldl_append, List.foldl_cons, List.foldl_nil,
      getD_tmacUpdate _ _ _ _ _ (by rwa [length_foldl_tmacUpdate]), ih]
    obtain h | rfl | h := Nat.lt_trichotomy n cols
    · rw [if_neg (by omega), if_pos h, if_pos (by omega)]
    · simp
    · rw [if_neg (by omega), if_neg (by omega), if_neg (by omega)]

theorem getD_workingRow (s : State) (m : Nat) {n : Nat} (hn : n < 16) :
    (workingRow s m).getD n 0 = s.accAt m n := by
  simp [workingRow, hn]

/-- Step 1b for the dword groups below `groups`: the logical columns accumulate one exact dot product for each group,
wrapped once at the end; the columns beyond them keep the copy of step 1a. -/
theorem getD_foldl_tmacPass (s : State) (m groups : Nat) {n : Nat} (hn : n < 16) :
    ((List.range groups).foldl (tmacPass s m) (workingRow s m)).getD n 0
      = if n < s.accShape.cols.toNat then
          wrap32 ((s.accAt m n).toInt + ∑ k ∈ Finset.range groups, (taDword s m k).dot (tbDword s k n))
        else s.accAt m n := by
  induction groups with
  | zero =>
    rw [List.range_zero, List.foldl_nil, getD_workingRow s m hn]
    simp
  | succ groups ih =>
    have hlen : n < ((List.range groups).foldl (tmacPass s m) (workingRow s m)).length := by
      rw [length_foldl_tmacPass]
      simpa [workingRow] using hn
    rw [List.range_succ, List.foldl_append, List.foldl_cons, List.foldl_nil, tmacPass,
      getD_foldl_tmacUpdate _ _ _ _ hlen, ih]
    split
    · rw [dpbd_wrap32, Finset.sum_range_succ, add_assoc]
    · rfl

/-- The product of byte column `j` of TA's row `m` with the byte of TB that the packing of 41_pipeline.md R109 pairs it
with for column `n` of ACC (40_engine.md R86). -/
def State.tmacTerm (s : State) (m n j : Nat) : Int :=
  (s.taAt m j).toInt * (s.tbAt (j / 4) (4 * n + j % 4)).toInt

theorem tmacTerm_lane (s : State) (m n k : Nat) {e : Nat} (he : e < 4) :
    s.tmacTerm m n (4 * k + e) = (s.taAt m (laneColumn k e)).toInt * (s.tbAt k (laneColumn n e)).toInt := by
  have hdiv : (4 * k + e) / 4 = k := by omega
  have hmod : (4 * k + e) % 4 = e := by omega
  rw [State.tmacTerm, hdiv, hmod, laneColumn, laneColumn]

theorem dot_eq_sum_tmacTerm (s : State) (m n k : Nat) :
    (taDword s m k).dot (tbDword s k n) = ∑ e ∈ Finset.range 4, s.tmacTerm m n (4 * k + e) := by
  rw [Finset.sum_congr rfl fun e he => tmacTerm_lane s m n k (Finset.mem_range.mp he)]
  simp only [Finset.sum_range_succ, Finset.sum_range_zero, zero_add]
  rfl

theorem sum_dot_eq_sum_tmacTerm (s : State) (m n groups : Nat) :
    ∑ k ∈ Finset.range groups, (taDword s m k).dot (tbDword s k n)
      = ∑ j ∈ Finset.range (4 * groups), s.tmacTerm m n j := by
  induction groups with
  | zero => rfl
  | succ groups ih => rw [Finset.sum_range_succ, ih, Nat.mul_succ, Finset.sum_range_add, dot_eq_sum_tmacTerm]

/-- The three regions of ACC after `tmac()` (40_engine.md R86): trailing rows, trailing columns, and the product. -/
theorem tmac_accAt_closed (s : State) {m n : Nat} (hm : m < 16) (hn : n < 16) :
    (tmac s).accAt m n
      = if s.accShape.rows.toNat ≤ m then 0
        else if s.accShape.cols.toNat ≤ n then s.accAt m n
        else wrap32 ((s.accAt m n).toInt
          + ∑ j ∈ Finset.range (4 * (s.taShape.cols.toNat / 4)), s.tmacTerm m n j) := by
  rw [tmac_accAt s hm hn, tmacRow, getD_foldl_tmacPass s m _ hn, sum_dot_eq_sum_tmacTerm]
  simp only [← Nat.not_lt, ite_not]

/-- A tile TB that packs the matrix `B` in the region read makes the terms those of a matrix product. -/
theorem tmacTerm_of_packed {s : State} {B : Nat → Nat → Byte} {groups n : Nat}
    (hB : ∀ k e, k < groups → e < 4 → s.tbAt k (4 * n + e) = B (4 * k + e) n) (m : Nat) {j : Nat}
    (hj : j < 4 * groups) : s.tmacTerm m n j = (s.taAt m j).toInt * (B j n).toInt := by
  rw [State.tmacTerm, hB (j / 4) (j % 4) (by omega) (by omega), Nat.div_add_mod]

/-- Settles O36: the three regions of ACC, and under the packing the sum rewritten term by term. -/
theorem tmacClosedForm : Obligations.TmacClosedForm := by
  unfold Obligations.TmacClosedForm
  intro s hfit
  refine ⟨(tmac s).acc, by rw [exec_tmac, if_pos hfit]; rfl, fun r n => tmac_accAt_closed s, ?_⟩
  intro B hB r n hr hn hrow hcol
  have hterms := Finset.sum_congr rfl fun j hj =>
    tmacTerm_of_packed (s := s) (fun k e hk he => hB k n e hk hcol he) r (Finset.mem_range.mp hj)
  calc (tmac s).accAt r n
      = wrap32 ((s.accAt r n).toInt
          + ∑ j ∈ Finset.range (4 * (s.taShape.cols.toNat / 4)), s.tmacTerm r n j) := by
        rw [tmac_accAt_closed s hr hn, if_neg (Nat.not_le.mpr hrow), if_neg (Nat.not_le.mpr hcol)]
    _ = _ := by rw [hterms]; rfl

/-- Settles O37: the first region of the closed form, and the frame of the error. -/
theorem tmacZeroesTrailingRows : Obligations.TmacZeroesTrailingRows := by
  unfold Obligations.TmacZeroesTrailingRows
  intro s t h
  obtain ⟨hfit, rfl⟩ | ⟨hmisfit, rfl⟩ := exec_tmac_eq_next h
  · refine ⟨fun _ r n hrow hr hn => ?_, absurd hfit⟩
    rw [thenOk_accAt, tmac_accAt_closed s hr hn, if_pos hrow]
  · exact ⟨fun hfit => absurd hfit hmisfit, fun _ => thenShapeMismatch_acc s⟩

/-- Settles O38: the second region of the closed form, and the frame of the error. -/
theorem tmacKeepsTrailingColumns : Obligations.TmacKeepsTrailingColumns := by
  unfold Obligations.TmacKeepsTrailingColumns
  intro s t h r n hrow hr hcol hn
  obtain ⟨_, rfl⟩ | ⟨_, rfl⟩ := exec_tmac_eq_next h
  · rw [thenOk_accAt, tmac_accAt_closed s hr hn, if_neg (Nat.not_le.mpr hrow), if_pos hcol]
  · rw [thenShapeMismatch_accAt]

end Sys2Proof.Machine
end

section
/-! PROOFS. The Pipeline (41_pipeline.md R100 to R120): how its four commands answer `pipe_check`, what `PLDA`, `PLDB` and
`PDIAG` do, the product of two loaded partitions, and the column sums that `HCS` leaves in V. -/

namespace Sys2Proof.Machine

/-! ### `pipe_check` -/

theorem pipeCheck_of_shapes_ne {s : State} (h : s.fShape ≠ s.kShape) : pipeCheck s = .shapeMismatch := by
  refine if_pos ?_
  by_contra hne
  obtain ⟨hrows, hcols⟩ := not_or.mp hne
  exact h (shape_ext (not_not.mp hrows) (not_not.mp hcols))

theorem pipeCheck_of_not_multiple {s : State} (heq : s.fShape = s.kShape)
    (h : s.fShape.rows.toNat % 4 ≠ 0 ∨ s.fShape.cols.toNat % 4 ≠ 0) : pipeCheck s = .shapeMismatch := by
  unfold pipeCheck
  rw [if_neg (by simp [heq])]
  exact if_pos h

theorem pipeCheck_of_too_large {s : State} (heq : s.fShape = s.kShape) (hrows : s.fShape.rows.toNat % 4 = 0)
    (hcols : s.fShape.cols.toNat % 4 = 0) (h : s.fShape.cols.toNat / 4 > 16 ∨ s.fShape.rows.toNat > 64) :
    pipeCheck s = .dimensionTooLarge := by
  unfold pipeCheck State.pipeM State.pipeN
  rw [if_neg (by simp [heq]), if_neg (by simp [hrows, hcols])]
  exact if_pos h

theorem pipeShapesFit_iff (s : State) :
    s.PipeShapesFit ↔
      s.fShape = s.kShape ∧ s.fShape.rows.toNat % 4 = 0 ∧ s.fShape.cols.toNat % 4 = 0 ∧
        ¬(s.fShape.cols.toNat / 4 > 16 ∨ s.fShape.rows.toNat > 64) := by
  refine and_congr_right fun _ => and_congr_right fun _ => and_congr_right fun hcols => ?_
  omega

/-- The instruction does the operation `op` when `pipe_check` answers OK, and raises the check's code when not. -/
def RunsBehindPipeCheck (i : Instr) (op : State → State) : Prop :=
  ∀ s : State, exec i s = finish (preflight (pipeCheck s) (op s)) s

theorem runsBehindPipeCheck_plda (i : BitVec 2) : RunsBehindPipeCheck (.plda i) (loadLeft i.toNat) := fun _ => rfl

theorem runsBehindPipeCheck_pldb (i : BitVec 2) : RunsBehindPipeCheck (.pldb i) (loadRight i.toNat) := fun _ => rfl

theorem runsBehindPipeCheck_pdiag (i : BitVec 2) : RunsBehindPipeCheck (.pdiag i) (extractDiag i.toNat) := fun _ => rfl

theorem runsBehindPipeCheck_hcs : RunsBehindPipeCheck .hcs hadamardColumnSum := fun _ => rfl

section
variable {i : Instr} {op : State → State}

theorem RunsBehindPipeCheck.exec_of_fit (hrun : RunsBehindPipeCheck i op) {s : State} (hfit : s.PipeShapesFit) :
    exec i s = .next ((op s).thenOk 0) := by
  rw [hrun s, finish_preflight_ok ((pipeCheck_eq_ok s).mpr hfit)]

theorem RunsBehindPipeCheck.exec_of_check (hrun : RunsBehindPipeCheck i op) {s : State} {code : StatusCode}
    (hcheck : pipeCheck s = code) (hcode : code ≠ .ok) : exec i s = .next (raise code s) := by
  rw [hrun s, hcheck, preflight_error hcode, finish_error]

/-- The first failing test of `pipe_check` decides the code (41_pipeline.md R103). -/
theorem RunsBehindPipeCheck.rejectsMisfitShapes (hrun : RunsBehindPipeCheck i op) : RejectsMisfitShapes i := by
  refine fun s => ⟨fun hne => ?_, fun heq h => ?_, fun heq hrows hcols h => ?_⟩
  · exact hrun.exec_of_check (pipeCheck_of_shapes_ne hne) nofun
  · exact hrun.exec_of_check (pipeCheck_of_not_multiple heq h) nofun
  · exact hrun.exec_of_check (pipeCheck_of_too_large heq hrows hcols h) nofun

end

/-- Each of the four Pipeline commands is one operation behind `pipe_check`. -/
theorem exists_runsBehindPipeCheck {i : Instr} (h : (∃ p, i = .plda p ∨ i = .pldb p ∨ i = .pdiag p) ∨ i = .hcs) :
    ∃ op, RunsBehindPipeCheck i op := by
  obtain ⟨p, rfl | rfl | rfl⟩ | rfl := h
  · exact ⟨_, runsBehindPipeCheck_plda p⟩
  · exact ⟨_, runsBehindPipeCheck_pldb p⟩
  · exact ⟨_, runsBehindPipeCheck_pdiag p⟩
  · exact ⟨_, runsBehindPipeCheck_hcs⟩

/-- Settles O40: a command behind `pipe_check` rejects the misfits and completes with OK on the rest. -/
theorem pipelineShapeCheck : Obligations.PipelineShapeCheck := by
  unfold Obligations.PipelineShapeCheck
  refine ⟨fun i hi => ?_, pipeShapesFit_iff⟩
  obtain ⟨op, hrun⟩ := exists_runsBehindPipeCheck hi
  exact ⟨hrun.rejectsMisfitShapes, fun s hfit => ⟨_, hrun.exec_of_fit hfit, rfl⟩⟩

/-! ### Format P -/

theorem ofNat_bits_eq_partField (w : Word) : BitVec.ofNat 2 (bits w 1 0) = partField w := by
  have h : (partField w).toNat = bits w 1 0 := toNat_extractLsb'_eq_bits w 0 1
  rw [← h, BitVec.ofNat_toNat, BitVec.setWidth_eq]

/-- The words with a format P opcode and a bit of 27:2 set fail the second test of 30_encoding.md R66. -/
theorem stepsIllegally_of_formatP {c : Command}
    (hop : bits c.cmd 31 28 = 5 ∨ bits c.cmd 31 28 = 6 ∨ bits c.cmd 31 28 = 7)
    (h : bits c.cmd 27 2 ≠ 0) : StepsIllegally c :=
  stepsIllegally_of_illegalWord (.inr (.inl (.inr (.inl ⟨hop, h⟩))))

/-- A row of the opcode map with a format P opcode has the encoding of format P. -/
theorem partitionFormat_of_row {op : Nat} {mk : BitVec 2 → Instr} (hop : op = 5 ∨ op = 6 ∨ op = 7)
    (hrow : ∀ c : Command, bits c.cmd 31 28 = op → bits c.cmd 27 2 = 0 → decode c = .ok (mk (partField c.cmd))) :
    PartitionFormat op mk := by
  intro c hc
  subst hc
  refine ⟨fun hzero => ?_, stepsIllegally_of_formatP hop⟩
  rw [ofNat_bits_eq_partField]
  exact hrow c rfl hzero

theorem partitionFormat_plda : PartitionFormat 5 .plda :=
  partitionFormat_of_row (.inl rfl) fun _ hop hzero =>
    decode_eq_ok_iff.mpr (.inr (.inr (.inr (.inr (.inl ⟨hop, hzero, rfl⟩)))))

theorem partitionFormat_pldb : PartitionFormat 6 .pldb :=
  partitionFormat_of_row (.inr (.inl rfl)) fun _ hop hzero =>
    decode_eq_ok_iff.mpr (.inr (.inr (.inr (.inr (.inr (.inl ⟨hop, hzero, rfl⟩))))))

theorem partitionFormat_pdiag : PartitionFormat 7 .pdiag :=
  partitionFormat_of_row (.inr (.inr rfl)) fun _ hop hzero =>
    decode_eq_ok_iff.mpr (.inr (.inr (.inr (.inr (.inr (.inr (.inl ⟨hop, hzero, rfl⟩)))))))

/-! ### `PLDA`, `PLDB` and `PDIAG` -/

/-- Settles O41: the padded transposed slice in TA, element by element. -/
theorem pldaLoadsLeftPartition : Obligations.PldaLoadsLeftPartition := by
  unfold Obligations.PldaLoadsLeftPartition
  refine ⟨fun s i hfit => ?_, fun i => (runsBehindPipeCheck_plda i).rejectsMisfitShapes, partitionFormat_plda⟩
  refine ⟨(loadLeft i.toNat s).ta, ?_, fun r c => loadLeft_taAt i.toNat s⟩
  rw [(runsBehindPipeCheck_plda i).exec_of_fit hfit, ← loadLeft_eq]

/-- Settles O42: the packed padded slice in TB, element by element; `F_SHAPE`, which the operation reads, is `K_SHAPE`. -/
theorem pldbLoadsRightPartition : Obligations.PldbLoadsRightPartition := by
  unfold Obligations.PldbLoadsRightPartition
  refine ⟨fun s i hfit => ?_, fun i => (runsBehindPipeCheck_pldb i).rejectsMisfitShapes, partitionFormat_pldb⟩
  refine ⟨(loadRight i.toNat s).tb, ?_, fun k n e => ?_⟩
  · rw [(runsBehindPipeCheck_pldb i).exec_of_fit hfit, ← loadRight_eq]
  · have ⟨hshape, _⟩ := hfit
    have helement := loadRight_tbAt i.toNat s (k := k) (n := n) (e := e)
    rw [State.kAt, ← hshape] at helement
    rw [← hshape]
    exact helement

/-- Four segments of Q ≤ 16 entries lie within V. -/
theorem segment_index_lt {q : Nat} (hq : q ≤ 16) (i : BitVec 2) {k : Nat} (hk : k < q) : q * i.toNat + k < 64 := by
  have hi : q * i.toNat ≤ q * 3 := Nat.mul_le_mul_left q (Nat.le_of_lt_succ i.isLt)
  omega

/-- Settles O44: the segment and its complement are the two cases of `extractDiag_vAt`. -/
theorem pdiagExtractsDiagonal : Obligations.PdiagExtractsDiagonal := by
  unfold Obligations.PdiagExtractsDiagonal
  refine ⟨fun s i hfit => ?_, fun i => (runsBehindPipeCheck_pdiag i).rejectsMisfitShapes, partitionFormat_pdiag⟩
  have ⟨_, _, _, _, hcols⟩ := hfit
  refine ⟨(extractDiag i.toNat s).v, ?_, fun k hk => ⟨?_, segment_index_lt (by omega) i hk⟩, fun j hj => ?_⟩
  · rw [(runsBehindPipeCheck_pdiag i).exec_of_fit hfit, ← extractDiag_eq]
  · refine (extractDiag_vAt i.toNat s _).trans ?_
    rw [if_pos ⟨Nat.le_add_right _ _, Nat.add_lt_add_left hk _⟩, State.pipeQ, State.pipeN, Nat.add_sub_cancel_left]
  · exact (extractDiag_vAt i.toNat s j).trans <| if_neg fun ⟨hlow, hhigh⟩ =>
      hj.elim (Nat.not_lt.mpr hlow) (Nat.not_le.mpr hhigh)

/-! ### The product of two loaded partitions -/

theorem toInt_wrap32_of_bounds {a : Int} (h : -1048576 ≤ a ∧ a ≤ 1048576) : (wrap32 a).toInt = a := by
  rw [wrap32, BitVec.toInt_ofInt]
  exact Int.bmod_eq_of_le (by omega) (by omega)

/-- Up to 64 products of bytes never leave the range of an int32 (41_pipeline.md R119). -/
theorem columnProduct_bounds {s : State} (hrows : s.fShape.rows.toNat ≤ 64) (a b : Nat) :
    -1048576 ≤ s.columnProduct a b ∧ s.columnProduct a b ≤ 1048576 := by
  have hterm (r : Nat) := byte_product_bounds (s.fAt r a) (s.kAt r b)
  have hupper := Finset.sum_le_card_nsmul (Finset.range s.fShape.rows.toNat) _ 16384 fun r _ => (hterm r).2
  have hlower := Finset.card_nsmul_le_sum (Finset.range s.fShape.rows.toNat) _ (-16256) fun r _ => (hterm r).1
  simp only [Finset.card_range, nsmul_eq_mul] at hupper hlower
  unfold State.columnProduct
  omega

/-- `PLDA i`, `PLDB j`, `TZERO`, `TMAC`, the operation part of each. -/
def multiplyPair (i j : Nat) (s : State) : State := tmac (zeroAcc (loadRight j (loadLeft i s)))

theorem pairStep_eq (s : State) (i : Nat) : pairStep s i = extractDiag i (multiplyPair i i s) := rfl

theorem tmacTerm_congr {s t : State} (hta : s.taAt = t.taAt) (htb : s.tbAt = t.tbAt) : s.tmacTerm = t.tmacTerm := by
  funext m n c
  simp only [State.tmacTerm, hta, htb]

/-- A term of the product of two loaded tiles: element c of column m of the left partition times element c of column n of
the right one, 0 where either is padding. -/
theorem tmacTerm_loaded (s : State) (i j : Nat) {m n c : Nat} (hm : m < 16) (hn : n < 16) (hc : c < 64) :
    (loadRight j (loadLeft i s)).tmacTerm m n c
      = if c < s.pipeM ∧ m < s.pipeQ ∧ n < s.pipeQ then
          (s.fAt c (s.pipeQ * i + m)).toInt * (s.kAt c (s.pipeQ * j + n)).toInt
        else 0 := by
  have hleft := loadLeft_taAt i s hm hc
  have hright := loadRight_tbAt j (loadLeft i s) (k := c / 4) (e := c % 4) (by omega) hn (by omega)
  rw [Nat.div_add_mod, loadLeft_kAt] at hright
  change _ = if c < s.pipeM ∧ n < s.pipeQ then s.kAt c (s.pipeQ * j + n) else 0 at hright
  rw [State.tmacTerm, loadRight_taAt, hleft, hright]
  by_cases h : c < s.pipeM ∧ m < s.pipeQ ∧ n < s.pipeQ
  · obtain ⟨hc, hm, hn⟩ := h
    simp only [hc, hm, hn, and_self, if_true]
  · rw [if_neg h]
    split
    · rw [if_neg (by omega)]
      exact mul_eq_zero_of_right _ BitVec.toInt_zero
    · exact mul_eq_zero_of_left BitVec.toInt_zero _

/-- The zero padding adds nothing: over any tile width that covers the M rows of the matrices, the terms sum to the
product of the two columns inside the partitions, and to 0 outside them (41_pipeline.md R118). -/
theorem sum_tmacTerm_loaded (s : State) (i j : Nat) {m n width : Nat} (hm : m < 16) (hn : n < 16)
    (hcover : s.pipeM ≤ width) (hwidth : width ≤ 64) :
    ∑ c ∈ Finset.range width, (loadRight j (loadLeft i s)).tmacTerm m n c
      = if m < s.pipeQ ∧ n < s.pipeQ then s.columnProduct (s.pipeQ * i + m) (s.pipeQ * j + n) else 0 := by
  rw [Finset.sum_congr rfl fun c hc =>
    tmacTerm_loaded s i j hm hn (Nat.lt_of_lt_of_le (Finset.mem_range.mp hc) hwidth)]
  by_cases h : m < s.pipeQ ∧ n < s.pipeQ
  · rw [if_pos h, ← Finset.sum_subset (Finset.range_subset_range.mpr hcover)]
    · exact Finset.sum_congr rfl fun c hc => if_pos ⟨Finset.mem_range.mp hc, h⟩
    · exact fun c _ hc => if_neg fun hin => hc (Finset.mem_range.mpr hin.1)
  · rw [if_neg h]
    exact Finset.sum_eq_zero fun c _ => if_neg fun hin => h hin.2

/-- ACC after one pair under the full tile shapes. -/
theorem multiplyPair_accAt (i j : Nat) {s : State} (hrows : s.fShape.rows.toNat ≤ 64)
    (hacc : s.accShape = { rows := 16, cols := 16 }) {m n : Nat} (hm : m < 16) (hn : n < 16) :
    (multiplyPair i j s).accAt m n
      = wrap32 (if m < s.pipeQ ∧ n < s.pipeQ then s.columnProduct (s.pipeQ * i + m) (s.pipeQ * j + n) else 0) := by
  have hrow : ¬(zeroAcc (loadRight j (loadLeft i s))).accShape.rows.toNat ≤ m := by simpa [hacc] using hm
  have hcol : ¬(zeroAcc (loadRight j (loadLeft i s))).accShape.cols.toNat ≤ n := by simpa [hacc] using hn
  have hwidth : 4 * ((zeroAcc (loadRight j (loadLeft i s))).taShape.cols.toNat / 4) = 64 := by simp
  have hzero : (0 : Word).toInt = 0 := rfl
  rw [multiplyPair, tmac_accAt_closed _ hm hn, if_neg hrow, if_neg hcol, zeroAcc_accAt, hzero, zero_add, hwidth,
    tmacTerm_congr (zeroAcc_taAt _) (zeroAcc_tbAt _), sum_tmacTerm_loaded s i j hm hn hrows (Nat.le_refl 64)]

/-! ### `HCS` -/

/-- `t` has the matrices and the accumulator shape of `s`: all that the pairs of `HCS` read and none of them writes. -/
structure State.SamePairInputs (s t : State) : Prop where
  fShape : t.fShape = s.fShape
  kShape : t.kShape = s.kShape
  fmem : t.fmem = s.fmem
  kmem : t.kmem = s.kmem
  accShape : t.accShape = s.accShape

theorem State.SamePairInputs.pairStep {s t : State} (h : s.SamePairInputs t) (i : Nat) :
    s.SamePairInputs (pairStep t i) :=
  ⟨by rw [pairStep_fShape, h.fShape], by rw [pairStep_kShape, h.kShape], by rw [pairStep_fmem, h.fmem],
    by rw [pairStep_kmem, h.kmem], by rw [pairStep_accShape, h.accShape]⟩

theorem State.SamePairInputs.foldl_pairStep (s : State) (pairs : Nat) :
    s.SamePairInputs ((List.range pairs).foldl Machine.pairStep s) := by
  induction pairs with
  | zero => exact ⟨rfl, rfl, rfl, rfl, rfl⟩
  | succ pairs ih =>
    rw [List.range_succ, List.foldl_append]
    exact ih.pairStep pairs

theorem State.SamePairInputs.pipeQ {s t : State} (h : s.SamePairInputs t) : t.pipeQ = s.pipeQ := by
  simp only [State.pipeQ, State.pipeN, h.fShape]

theorem State.SamePairInputs.columnProduct {s t : State} (h : s.SamePairInputs t) :
    t.columnProduct = s.columnProduct := by
  funext a b
  simp only [State.columnProduct, fAt_congr h.fmem h.fShape, kAt_congr h.kmem h.kShape, h.fShape]

/-- V after one pair of `HCS`: segment i holds the column sums of its columns, everything else is as before. -/
theorem pairStep_vAt (i : Nat) {s : State} (hrows : s.fShape.rows.toNat ≤ 64) (hQ : s.pipeQ ≤ 16)
    (hacc : s.accShape = { rows := 16, cols := 16 }) (j : Nat) :
    (pairStep s i).vAt j
      = if s.pipeQ * i ≤ j ∧ j < s.pipeQ * i + s.pipeQ then wrap32 (s.columnProduct j j) else s.vAt j := by
  have hframe : (multiplyPair i i s).vAt = s.vAt := by simp [multiplyPair]
  have hq : (multiplyPair i i s).pipeQ = s.pipeQ := rfl
  rw [pairStep_eq, extractDiag_vAt, hq, hframe]
  split
  case isTrue hseg =>
    have hk : j - s.pipeQ * i < s.pipeQ := by omega
    have hk16 : j - s.pipeQ * i < 16 := by omega
    rw [multiplyPair_accAt i i hrows hacc hk16 hk16, if_pos ⟨hk, hk⟩, Nat.add_sub_cancel' hseg.1]
  case isFalse => rfl

/-- The first pairs of `HCS` fill the segments below theirs and touch nothing of V beyond. -/
theorem foldl_pairStep_vAt {s : State} (hrows : s.fShape.rows.toNat ≤ 64) (hQ : s.pipeQ ≤ 16)
    (hacc : s.accShape = { rows := 16, cols := 16 }) (pairs j : Nat) :
    ((List.range pairs).foldl pairStep s).vAt j
      = if j < s.pipeQ * pairs then wrap32 (s.columnProduct j j) else s.vAt j := by
  induction pairs with
  | zero => rfl
  | succ pairs ih =>
    have hsame := State.SamePairInputs.foldl_pairStep s pairs
    rw [List.range_succ, List.foldl_append, List.foldl_cons, List.foldl_nil,
      pairStep_vAt pairs (by rwa [hsame.fShape]) (by rwa [hsame.pipeQ]) (by rw [hsame.accShape, hacc]), hsame.pipeQ,
      hsame.columnProduct, ih, Nat.mul_succ]
    by_cases hbelow : j < s.pipeQ * pairs
    · rw [if_neg (by omega), if_pos hbelow, if_pos (by omega)]
    · simp only [Nat.not_lt.mp hbelow, true_and, if_neg hbelow]

/-- V after the operation of `HCS`: the column sums below N, everything else as before (41_pipeline.md R116, R117). -/
theorem hadamardColumnSum_vAt {s : State} (hfit : s.PipeShapesFit) (j : Nat) :
    (hadamardColumnSum s).vAt j
      = if j < s.fShape.cols.toNat then wrap32 (s.columnProduct j j) else s.vAt j := by
  obtain ⟨-, -, hmultiple, hrows, hcols⟩ := hfit
  have hN : s.pipeQ * 4 = s.fShape.cols.toNat := Nat.div_mul_cancel (Nat.dvd_of_mod_eq_zero hmultiple)
  rw [← hN]
  exact foldl_pairStep_vAt (s := { s with accShape := { rows := 16, cols := 16 } }) hrows
    (Nat.div_le_of_le_mul hcols) rfl 4 j

/-- Settles O49: the word in V is a column sum, which its range keeps exact; the diagonal entry of the product is the
same sum. -/
theorem hcsComputesColumnSums : Obligations.HcsComputesColumnSums := by
  unfold Obligations.HcsComputesColumnSums
  intro s hfit
  refine ⟨_, runsBehindPipeCheck_hcs.exec_of_fit hfit, fun j hj => ?_⟩
  have ⟨_, _, _, hrows, _⟩ := hfit
  have hsum : (((hadamardColumnSum s).thenOk 0).vAt j).toInt = s.columnProduct j j := by
    rw [thenOk_vAt, hadamardColumnSum_vAt hfit, if_pos hj, toInt_wrap32_of_bounds (columnProduct_bounds hrows j j)]
  exact ⟨hsum, hsum⟩

end Sys2Proof.Machine
end

section
/-! PROOFS. Host data access and CSR access (42_access.md R130 to R138): `EWR` and `ERD` of a named element, what a
write of each kind of element answers, where `OutOfRange` comes from, and the layout of the CSRs as 32-bit words. -/

namespace Sys2Proof.Machine

/-! ### `EWR` and `ERD` of a named element -/

theorem exec_ewr_of_element {sp : BitVec 4} {idx : BitVec 12} {e : Element} (h : element sp idx = some e) (value : Word)
    (s : State) : exec (.ewr sp idx value) s = finish (writeElement s e value) s := by
  simp only [exec, execEwr, h]

theorem exec_erd_of_element {sp : BitVec 4} {idx : BitVec 12} {e : Element} (h : element sp idx = some e) (s : State) :
    exec (.erd sp idx) s = .next (s.thenOk (readElement s e)) := by
  simp only [exec, execErd, h, respond_ok]

theorem element_csrNumber (r : Csr) : element 7 (csrNumber r) = some (.csr r) := by
  cases r <;> rfl

theorem exec_ewr_csr (r : Csr) (value : Word) (s : State) :
    exec (.ewr 7 (csrNumber r) value) s = finish (csrWrite s r value) s :=
  exec_ewr_of_element (element_csrNumber r) value s

theorem exec_erd_csr (r : Csr) (s : State) : exec (.erd 7 (csrNumber r)) s = .next (s.thenOk (csrRead s r)) :=
  exec_erd_of_element (element_csrNumber r) s

/-! ### The data spaces -/

/-- A space whose element writes store the int8 of `narrow8` in its storage obeys the rule of 42_access.md R133. -/
theorem byteWriteRule_of_writeElement {sp : BitVec 4} {size : Nat} {get : State → Memory} {put : State → Memory → State}
    {mk : Nat → Element} (helement : ∀ idx : BitVec 12, idx.toNat < size → element sp idx = some (mk idx.toNat))
    (hwrite : ∀ s i value, writeElement s (mk i) value
      = (narrow8 s.strict value).map fun b => put s (Store.write (get s) i b)) :
    ByteWriteRule sp size get put := by
  intro s idx value hidx
  have hexec : exec (.ewr sp idx value) s
      = finish ((narrow8 s.strict value).map fun b => put s (Store.write (get s) idx.toNat b)) s := by
    rw [exec_ewr_of_element (helement idx hidx), hwrite]
  refine ⟨fun hrange => ?_, fun hrange hstrict => ?_, fun hrange hstrict => ?_⟩
  · obtain ⟨b, hb, hvalue⟩ := narrow8_inRange s.strict hrange
    refine ⟨_, by rw [hexec, hb]; rfl, ?_, fun j => Store.read_write_other (get s) b⟩
    rw [Store.read_write_same, hvalue]
  · rw [hexec, hstrict, narrow8_strict hrange]
    rfl
  · exact ⟨_, by rw [hexec, hstrict, narrow8_notStrict hrange]; rfl, fun j => Store.read_write_other (get s) _⟩

/-- Settles O23: the write of an accumulator element has no check. -/
theorem accumulatorWrites : Obligations.AccumulatorWrites := by
  unfold Obligations.AccumulatorWrites
  intro s idx value hidx
  exact ⟨Store.write s.acc idx.toNat value, exec_ewr_of_element (element_acc hidx) value s,
    Store.read_write_same s.acc idx.toNat value, fun j => Store.read_write_other s.acc value⟩

/-! ### Where `OutOfRange` comes from -/

theorem narrow8_eq_outOfRange {strict : Bool} {value : Word} (h : narrow8 strict value = .error .outOfRange) :
    strict = true ∧ ¬(-128 ≤ value.toInt ∧ value.toInt ≤ 127) := by
  have hrange : ¬(-128 ≤ value.toInt ∧ value.toInt ≤ 127) := fun hrange => by
    obtain ⟨b, hb, -⟩ := narrow8_inRange strict hrange
    rw [hb] at h
    cases h
  cases strict with
  | true => exact ⟨rfl, hrange⟩
  | false =>
    rw [narrow8_notStrict hrange] at h
    cases h

/-- A checked write fails only with the code of its check. -/
theorem eq_error_of_map_eq_error {α : Type} {check : Except StatusCode α} {store : α → State} {code : StatusCode}
    (h : check.map store = .error code) : check = .error code := by
  cases check with
  | ok a => cases h
  | error code' => exact congrArg Except.error (Except.error.inj h)

theorem csrWrite_ne_outOfRange (s : State) (r : Csr) (value : Word) : csrWrite s r value ≠ .error .outOfRange := by
  cases r with
  | ctrl | fShape | kShape | status | vLen => exact nofun
  | taShape | tbShape | accShape =>
    intro h
    have hcheck := eq_error_of_map_eq_error h
    obtain ⟨-, -, hok⟩ | ⟨-, hlarge⟩ := tileShapeOfWord_cases _ value
    · cases hok.symm.trans hcheck
    · cases hlarge.symm.trans hcheck

/-- The space an element belongs to (20_memory.md R41). -/
def elementSpace : Element → Space
  | .ta _ => .ta
  | .tb _ => .tb
  | .acc _ => .acc
  | .f _ => .f
  | .k _ => .k
  | .v _ => .v
  | .csr _ => .csr

theorem elementSpace_elementOfSpace {space : Space} {i : Nat} {e : Element} (h : elementOfSpace space i = some e) :
    elementSpace e = space := by
  cases space with
  | csr =>
    obtain ⟨r, -, rfl⟩ := Option.map_eq_some_iff.mp h
    rfl
  | ta | tb | acc | f | k | v =>
    cases h
    rfl

/-- The space code of a format E command that names an element is the code of the element's space. -/
theorem eq_spaceCode_of_element {sp : BitVec 4} {idx : BitVec 12} {e : Element} (h : element sp idx = some e) :
    sp = spaceCode (elementSpace e) := by
  unfold element at h
  cases hs : spaceOfCode sp with
  | none =>
    rw [hs] at h
    cases h
  | some space =>
    rw [hs] at h
    obtain ⟨-, h⟩ := Option.ite_none_right_eq_some.mp h
    rw [elementSpace_elementOfSpace h]
    exact spaceOfCode_eq_some.mp hs

/-- Only the write of an int8 element, under `STRICT`, of a value that does not fit, answers `OutOfRange`. -/
theorem writeElement_eq_outOfRange {s : State} {e : Element} {value : Word}
    (h : writeElement s e value = .error .outOfRange) :
    (elementSpace e = .ta ∨ elementSpace e = .tb ∨ elementSpace e = .f ∨ elementSpace e = .k) ∧ s.strict = true ∧
      ¬(-128 ≤ value.toInt ∧ value.toInt ≤ 127) := by
  cases e with
  | acc i | v i => cases h
  | csr r => exact absurd h (csrWrite_ne_outOfRange s r value)
  | ta i | tb i | f i | k i => exact ⟨by simp [elementSpace], narrow8_eq_outOfRange (eq_error_of_map_eq_error h)⟩

/-- A command that ends with `finish` completes with an error only when that error is its result. -/
theorem finish_last_eq_error {result : Except StatusCode State} {s t : State} (h : finish result s = .next t)
    (hlast : t.status.last ≠ .ok) : result = .error t.status.last := by
  obtain ⟨u, -, rfl⟩ | ⟨code, hcode, rfl⟩ := finish_eq_next.mp h
  · exact absurd rfl hlast
  · rw [raise_status, (recordStatus_fields code s.status).1, hcode]

/-- A command with a pre-flight check completes with an error only when its check answers that error. -/
theorem finish_preflight_last_eq_check {check : StatusCode} {effect s t : State}
    (h : finish (preflight check effect) s = .next t) (hlast : t.status.last ≠ .ok) : check = t.status.last := by
  obtain ⟨-, rfl⟩ | ⟨-, rfl⟩ := finish_preflight_eq_next.mp h
  · exact absurd rfl hlast
  · rw [raise_status, (recordStatus_fields check s.status).1]

theorem tmacCheck_ne_outOfRange (s : State) : tmacCheck s ≠ .outOfRange := by
  rw [tmacCheck_eq]
  split <;> decide

theorem pipeCheck_ne_outOfRange (s : State) : pipeCheck s ≠ .outOfRange := by
  unfold pipeCheck
  repeat' split
  all_goals decide

/-- An `EWR` completes with `OutOfRange` only as the write of an element that answers it. -/
theorem exec_ewr_outOfRange {sp : BitVec 4} {idx : BitVec 12} {value : Word} {s t : State}
    (h : exec (.ewr sp idx value) s = .next t) (hlast : t.status.last = .outOfRange) :
    ∃ e, element sp idx = some e ∧ writeElement s e value = .error .outOfRange := by
  cases he : element sp idx with
  | none =>
    simp only [exec, execEwr, he] at h
    cases h
    cases hlast
  | some e =>
    rw [exec_ewr_of_element he] at h
    have herror := finish_last_eq_error h (by simp [hlast])
    exact ⟨e, rfl, hlast ▸ herror⟩

theorem exec_erd_ne_outOfRange {sp : BitVec 4} {idx : BitVec 12} {s t : State} (h : exec (.erd sp idx) s = .next t) :
    t.status.last ≠ .outOfRange := by
  cases he : element sp idx with
  | none =>
    simp only [exec, execErd, he] at h
    cases h
    exact nofun
  | some e =>
    rw [exec_erd_of_element he] at h
    cases h
    exact nofun

/-- The only commands that complete with `OutOfRange` are writes. -/
theorem exists_ewr_of_outOfRange {i : Instr} {s t : State} (h : exec i s = .next t)
    (hlast : t.status.last = .outOfRange) : ∃ sp idx value, i = .ewr sp idx value := by
  have herror : t.status.last ≠ .ok := by simp [hlast]
  cases i with
  | ewr sp idx value => exact ⟨sp, idx, value, rfl⟩
  | erd sp idx => exact absurd hlast (exec_erd_ne_outOfRange h)
  | tzero =>
    cases h
    cases hlast
  | tmac => exact absurd ((finish_preflight_last_eq_check h herror).trans hlast) (tmacCheck_ne_outOfRange s)
  | plda p | pldb p | pdiag p | hcs =>
    exact absurd ((finish_preflight_last_eq_check h herror).trans hlast) (pipeCheck_ne_outOfRange s)

/-- Settles O22: the four spaces are written through `narrow8`, the one source of `OutOfRange`. -/
theorem byteSpaceWrites : Obligations.ByteSpaceWrites := by
  unfold Obligations.ByteSpaceWrites
  refine ⟨byteWriteRule_of_writeElement (fun _ => element_ta) fun _ _ _ => rfl,
    byteWriteRule_of_writeElement (fun _ => element_tb) fun _ _ _ => rfl,
    byteWriteRule_of_writeElement (fun _ => element_f) fun _ _ _ => rfl,
    byteWriteRule_of_writeElement (fun _ => element_k) fun _ _ _ => rfl, fun i s t h hlast => ?_⟩
  obtain ⟨sp, idx, value, rfl⟩ := exists_ewr_of_outOfRange h hlast
  obtain ⟨e, he, herror⟩ := exec_ewr_outOfRange h hlast
  obtain ⟨hspace, hcause⟩ := writeElement_eq_outOfRange herror
  refine ⟨sp, idx, value, rfl, ?_, hcause⟩
  rw [eq_spaceCode_of_element he]
  obtain hspace | hspace | hspace | hspace := hspace <;> simp [hspace, spaceCode]

/-! ### Writing the CSRs -/

theorem ofNat_bits_eq_extractLsb' (w : Word) (lo n : Nat) :
    BitVec.ofNat (n + 1) (bits w (lo + n) lo) = w.extractLsb' lo (n + 1) := by
  rw [← toNat_extractLsb'_eq_bits, BitVec.ofNat_toNat, BitVec.setWidth_eq]

/-- The shape fields of a data operand as the spec's bit ranges. -/
theorem shapeOfWord_eq_bits (value : Word) :
    shapeOfWord value = { rows := BitVec.ofNat 8 (bits value 7 0), cols := BitVec.ofNat 8 (bits value 15 8) } :=
  shape_ext (ofNat_bits_eq_extractLsb' value 0 7).symm (ofNat_bits_eq_extractLsb' value 8 7).symm

theorem toNat_shapeOfWord_rows (value : Word) : (shapeOfWord value).rows.toNat = bits value 7 0 :=
  toNat_extractLsb'_eq_bits value 0 7

theorem toNat_shapeOfWord_cols (value : Word) : (shapeOfWord value).cols.toNat = bits value 15 8 :=
  toNat_extractLsb'_eq_bits value 8 7

theorem bits_zero_beq_one (value : Word) : (bits value 0 0 == 1) = value.getLsbD 0 := by
  simp [bits, BitVec.getLsbD, Nat.testBit_zero, Bool.beq_eq_decide_eq]

/-- A CSR whose write stores the checked shape obeys the rule of 42_access.md R136. -/
theorem tileShapeWriteRule_of_csrWrite {r : Csr} {maxCols : Nat} {put : State → Shape → State}
    (hwrite : ∀ s value, csrWrite s r value = (tileShapeOfWord maxCols value).map (put s)) :
    TileShapeWriteRule (csrNumber r) maxCols put := by
  intro s value
  have hcases := tileShapeOfWord_cases maxCols value
  rw [toNat_shapeOfWord_rows, toNat_shapeOfWord_cols] at hcases
  rw [exec_ewr_csr, hwrite, ← shapeOfWord_eq_bits]
  obtain ⟨hrows, hcols, hok⟩ | ⟨hbeyond, herror⟩ := hcases
  · rw [hok]
    exact ⟨fun hbeyond => by omega, fun _ _ => rfl⟩
  · rw [herror]
    exact ⟨fun _ => rfl, fun hrows hcols => by omega⟩

/-- Settles O24: the three registers are written through the one capacity check. -/
theorem tileShapeWrites : Obligations.TileShapeWrites := by
  unfold Obligations.TileShapeWrites
  exact ⟨tileShapeWriteRule_of_csrWrite (r := .taShape) fun _ _ => rfl,
    tileShapeWriteRule_of_csrWrite (r := .tbShape) fun _ _ => rfl,
    tileShapeWriteRule_of_csrWrite (r := .accShape) fun _ _ => rfl⟩

/-- Settles O25: the writes of the three registers have no check, and their fields are bit ranges of the operand. -/
theorem uncheckedCsrWrites : Obligations.UncheckedCsrWrites := by
  unfold Obligations.UncheckedCsrWrites
  intro s value
  rw [bits_zero_beq_one, ← shapeOfWord_eq_bits]
  exact ⟨exec_ewr_csr .ctrl value s, exec_ewr_csr .fShape value s, exec_ewr_csr .kShape value s⟩

/-! ### Reading the CSRs -/

theorem toNat_wordOfShape (shape : Shape) :
    (wordOfShape shape).toNat = shape.rows.toNat + 256 * shape.cols.toNat := by
  simp only [wordOfShape, toNat_append_eq, BitVec.toNat_ofNat]
  omega

theorem isShapeWord_wordOfShape (shape : Shape) : IsShapeWord shape (wordOfShape shape) := by
  have hrows := shape.rows.isLt
  have hcols := shape.cols.isLt
  simp only [IsShapeWord, bits, toNat_wordOfShape]
  omega

/-- A field of `n` bits read as a 32-bit word: the field in the low bits, zeros above. -/
theorem bits_setWidth {n : Nat} (hn : n < 31) (x : BitVec (n + 1)) :
    bits (x.setWidth 32) n 0 = x.toNat ∧ bits (x.setWidth 32) 31 (n + 1) = 0 := by
  have hx : (x.setWidth 32).toNat = x.toNat := BitVec.toNat_setWidth_of_le (by omega)
  simp [bits, hx, Nat.mod_eq_of_lt x.isLt, Nat.div_eq_of_lt x.isLt]

/-- Settles O27: each register reads as the word of its fields. -/
theorem csrReads : Obligations.CsrReads := by
  unfold Obligations.CsrReads
  intro s
  have hctrl := bits_setWidth (by decide) (BitVec.ofBool s.strict)
  rw [BitVec.toNat_ofBool] at hctrl
  exact ⟨⟨_, exec_erd_csr .ctrl s, hctrl⟩, ⟨_, exec_erd_status s, isStatusWord_statusWord s.status⟩,
    ⟨_, exec_erd_csr .taShape s, isShapeWord_wordOfShape s.taShape⟩,
    ⟨_, exec_erd_csr .tbShape s, isShapeWord_wordOfShape s.tbShape⟩,
    ⟨_, exec_erd_csr .accShape s, isShapeWord_wordOfShape s.accShape⟩,
    ⟨_, exec_erd_csr .fShape s, isShapeWord_wordOfShape s.fShape⟩,
    ⟨_, exec_erd_csr .kShape s, isShapeWord_wordOfShape s.kShape⟩,
    ⟨_, exec_erd_csr .vLen s, bits_setWidth (by decide) s.vLen⟩⟩

end Sys2Proof.Machine
end

section
/-! PROOFS. Errors (60_exceptions.md R150 to R157): a command that completes with an error was raised in the state it was
taken in, and that is the whole of its effect. -/

namespace Sys2Proof.Machine

/-- A command that completes with an error has done nothing but raise that error. -/
theorem State.Completes.exists_eq_raise {s t : State} (h : s.Completes t) (hlast : t.status.last ≠ .ok) :
    ∃ code, t = raise code s := by
  cases h with
  | ok rdata same => exact absurd rfl hlast
  | raised code => exact ⟨code, rfl⟩

/-- Settles O18: a failing command is an error raised in the state left once the command is taken from the port. -/
theorem failingCommandChangesOnlyStatus : Obligations.FailingCommandChangesOnlyStatus := by
  unfold Obligations.FailingCommandChangesOnlyStatus
  intro s t c rest hp h hlast
  rw [step_of_command hp] at h
  obtain ⟨code, rfl⟩ := (execCommand_completes h).exists_eq_raise hlast
  obtain ⟨hcode, hseen⟩ := recordStatus_fields code s.status
  simp only [raise_status, hcode]
  exact ⟨rfl, hseen⟩

end Sys2Proof.Machine
end

section
/-! PROOFS. Decoding and encoding (30_encoding.md R61 to R65, R69): the fields of an encoded word, the word that its
fields determine, and the rows of the opcode map as masks. -/

namespace Sys2Proof.Machine

/-! ### The fields of an encoded word -/

/-- The word of an opcode with every other bit zero: `op << 28` (30_encoding.md R61). -/
def opcodeWord (op : BitVec 4) : Word := op.setWidth 32 <<< 28

theorem toNat_opcodeWord (op : BitVec 4) : (opcodeWord op).toNat = 2 ^ 28 * op.toNat := by
  have hop := op.isLt
  simp only [opcodeWord, BitVec.toNat_shiftLeft, BitVec.toNat_setWidth, Nat.shiftLeft_eq]
  omega

theorem toNat_encodeE (op : BitVec 4) (sp : BitVec 4) (idx : BitVec 12) :
    (encodeE (opcodeWord op) sp idx).toNat = 2 ^ 24 * (2 ^ 4 * op.toNat + sp.toNat) + idx.toNat := by
  have hsp := sp.isLt
  have hidx := idx.isLt
  have hspWord : (sp.setWidth 32 <<< 24).toNat = 2 ^ 24 * sp.toNat := by
    simp only [BitVec.toNat_shiftLeft, BitVec.toNat_setWidth, Nat.shiftLeft_eq]
    omega
  have hhigh : 2 ^ 28 * op.toNat ||| 2 ^ 24 * sp.toNat = 2 ^ 24 * (2 ^ 4 * op.toNat + sp.toNat) := by
    rw [← Nat.two_pow_add_eq_or_of_lt (by omega)]
    omega
  rw [encodeE, BitVec.toNat_or, BitVec.toNat_or, toNat_opcodeWord, hspWord, hhigh,
    BitVec.toNat_setWidth_of_le (by decide), ← Nat.two_pow_add_eq_or_of_lt (by omega)]

theorem toNat_encodeP (op : BitVec 4) (i : BitVec 2) :
    (encodeP (opcodeWord op) i).toNat = 2 ^ 28 * op.toNat + i.toNat := by
  have hi := i.isLt
  rw [encodeP, BitVec.toNat_or, toNat_opcodeWord, BitVec.toNat_setWidth_of_le (by decide),
    ← Nat.two_pow_add_eq_or_of_lt (by omega)]

/-- The fields of a format E word (30_encoding.md R62). -/
theorem fields_encodeE (op : BitVec 4) (sp : BitVec 4) (idx : BitVec 12) :
    bits (encodeE (opcodeWord op) sp idx) 31 28 = op.toNat ∧ bits (encodeE (opcodeWord op) sp idx) 23 12 = 0 ∧
      spField (encodeE (opcodeWord op) sp idx) = sp ∧ idxField (encodeE (opcodeWord op) sp idx) = idx := by
  have hop := op.isLt
  have hsp := sp.isLt
  have hidx := idx.isLt
  simp only [← BitVec.toNat_inj, toNat_spField, toNat_idxField, bits, toNat_encodeE]
  omega

/-- The fields of a format P word (30_encoding.md R63). -/
theorem fields_encodeP (op : BitVec 4) (i : BitVec 2) :
    bits (encodeP (opcodeWord op) i) 31 28 = op.toNat ∧ bits (encodeP (opcodeWord op) i) 27 2 = 0 ∧
      partField (encodeP (opcodeWord op) i) = i := by
  have hop := op.isLt
  have hi := i.isLt
  rw [← ofNat_bits_eq_partField]
  simp only [← BitVec.toNat_inj, BitVec.toNat_ofNat, bits, toNat_encodeP]
  omega

/-! ### Decoding an encoded command -/

theorem decode_encode_ewr (sp : BitVec 4) (idx : BitVec 12) (value : Word) :
    decode (encode (.ewr sp idx value)) = .ok (.ewr sp idx value) := by
  obtain ⟨hop, hreserved, hsp, hidx⟩ := fields_encodeE 1 sp idx
  exact decode_eq_ok_iff.mpr (.inl ⟨hop, hreserved, congrArg₂ (Instr.ewr · · value) hsp.symm hidx.symm⟩)

theorem decode_encode_erd (sp : BitVec 4) (idx : BitVec 12) : decode (encode (.erd sp idx)) = .ok (.erd sp idx) := by
  obtain ⟨hop, hreserved, hsp, hidx⟩ := fields_encodeE 2 sp idx
  exact decode_eq_ok_iff.mpr (.inr (.inl ⟨hop, hreserved, congrArg₂ Instr.erd hsp.symm hidx.symm⟩))

/-- A format P command decodes back when the row of its opcode makes it. -/
theorem decode_encode_of_row {op : BitVec 4} {mk : BitVec 2 → Instr} (hformat : PartitionFormat op.toNat mk)
    {i : BitVec 2} (hencode : (encode (mk i)).cmd = encodeP (opcodeWord op) i) :
    decode (encode (mk i)) = .ok (mk i) := by
  obtain ⟨hop, hreserved, hi⟩ := fields_encodeP op i
  have hdecode := (hformat (encode (mk i)) (by rw [hencode, hop])).1 (by rw [hencode, hreserved])
  rwa [ofNat_bits_eq_partField, hencode, hi] at hdecode

theorem decode_encode (i : Instr) : decode (encode i) = .ok i := by
  cases i with
  | ewr sp idx value => exact decode_encode_ewr sp idx value
  | erd sp idx => exact decode_encode_erd sp idx
  | plda p => exact decode_encode_of_row (op := 5) partitionFormat_plda rfl
  | pldb p => exact decode_encode_of_row (op := 6) partitionFormat_pldb rfl
  | pdiag p => exact decode_encode_of_row (op := 7) partitionFormat_pdiag rfl
  | tzero | tmac | hcs => decide

/-- Settles O3, command by command: the fields of the encoded word are the operands. -/
theorem decodeEncodeRoundTrip : Obligations.DecodeEncodeRoundTrip := by
  unfold Obligations.DecodeEncodeRoundTrip
  exact decode_encode

/-! ### Encoding a decoded word -/

/-- A word with the reserved bits of format E zero is the encoding of its fields. -/
theorem encodeE_fields {w : Word} {op : BitVec 4} (hop : bits w 31 28 = op.toNat) (hreserved : bits w 23 12 = 0) :
    encodeE (opcodeWord op) (spField w) (idxField w) = w := by
  have hw := w.isLt
  rw [← BitVec.toNat_inj, toNat_encodeE, toNat_spField, toNat_idxField, ← hop]
  simp only [bits] at hreserved ⊢
  omega

/-- A word with the reserved bits of format P zero is the encoding of its fields. -/
theorem encodeP_fields {w : Word} {op : BitVec 4} (hop : bits w 31 28 = op.toNat) (hreserved : bits w 27 2 = 0) :
    encodeP (opcodeWord op) (partField w) = w := by
  have hw := w.isLt
  rw [← BitVec.toNat_inj, toNat_encodeP, ← ofNat_bits_eq_partField, ← hop, BitVec.toNat_ofNat]
  simp only [bits] at hreserved ⊢
  omega

/-- A word with the reserved bits of format Z zero is its opcode. -/
theorem eq_opcode_of_formatZ {w : Word} {op : BitVec 4} (hop : bits w 31 28 = op.toNat) (hreserved : bits w 27 0 = 0) :
    opcodeWord op = w := by
  have hw := w.isLt
  rw [← BitVec.toNat_inj, toNat_opcodeWord, ← hop]
  simp only [bits] at hreserved ⊢
  omega

theorem encode_cmd_of_decode {c : Command} {i : Instr} (h : decode c = .ok i) : (encode i).cmd = c.cmd := by
  obtain ⟨hop, hz, rfl⟩ | ⟨hop, hz, rfl⟩ | ⟨hop, hz, rfl⟩ | ⟨hop, hz, rfl⟩ | ⟨hop, hz, rfl⟩ | ⟨hop, hz, rfl⟩ |
    ⟨hop, hz, rfl⟩ | ⟨hop, hz, rfl⟩ := decode_eq_ok_iff.mp h
  · exact encodeE_fields (op := 1) hop hz
  · exact encodeE_fields (op := 2) hop hz
  · exact eq_opcode_of_formatZ (op := 3) hop hz
  · exact eq_opcode_of_formatZ (op := 4) hop hz
  · exact encodeP_fields (op := 5) hop hz
  · exact encodeP_fields (op := 6) hop hz
  · exact encodeP_fields (op := 7) hop hz
  · exact eq_opcode_of_formatZ (op := 8) hop hz

theorem value_of_decode_ewr {c : Command} {sp : BitVec 4} {idx : BitVec 12} {value : Word}
    (h : decode c = .ok (.ewr sp idx value)) : value = c.wdata := by
  obtain ⟨-, -, -, -, hvalue⟩ : bits c.cmd 31 28 = 1 ∧ bits c.cmd 23 12 = 0 ∧ sp = spField c.cmd ∧
      idx = idxField c.cmd ∧ value = c.wdata := by
    simpa using decode_eq_ok_iff.mp h
  exact hvalue

/-- Settles O4: the fields of a decoded word determine it, since its reserved bits are zero. -/
theorem encodeOfDecodedWord : Obligations.EncodeOfDecodedWord := by
  unfold Obligations.EncodeOfDecodedWord
  intro c i h
  have hcmd := encode_cmd_of_decode h
  refine ⟨hcmd, ?_⟩
  rintro sp idx value rfl
  exact congrArg₂ Command.mk hcmd (value_of_decode_ewr h)

/-! ### The rows of the opcode map as masks -/

theorem bits_and_of_ones {mask : Word} {lo n : Nat} (h : mask.extractLsb' lo (n + 1) = BitVec.allOnes (n + 1))
    (w : Word) : bits (w &&& mask) (lo + n) lo = bits w (lo + n) lo := by
  rw [← toNat_extractLsb'_eq_bits, BitVec.extractLsb'_and, h, BitVec.and_allOnes, toNat_extractLsb'_eq_bits]

theorem bits_and_of_zeros {mask : Word} {lo n : Nat} (h : mask.extractLsb' lo (n + 1) = 0#(n + 1)) (w : Word) :
    bits (w &&& mask) (lo + n) lo = 0 := by
  rw [← toNat_extractLsb'_eq_bits, BitVec.extractLsb'_and, h, BitVec.and_zero, BitVec.toNat_ofNat, Nat.zero_mod]

/-- The mask of format E keeps the opcode and the reserved bits. -/
theorem and_maskE_eq_iff (w : Word) (op : BitVec 4) :
    w &&& 0xF0FFF000 = opcodeWord op ↔ bits w 31 28 = op.toNat ∧ bits w 23 12 = 0 := by
  have hop : bits (w &&& 0xF0FFF000) 31 28 = _ := bits_and_of_ones (lo := 28) (n := 3) (by decide) w
  have hsp : bits (w &&& 0xF0FFF000) 27 24 = 0 := bits_and_of_zeros (lo := 24) (n := 3) (by decide) w
  have hreserved : bits (w &&& 0xF0FFF000) 23 12 = _ := bits_and_of_ones (lo := 12) (n := 11) (by decide) w
  have hidx : bits (w &&& 0xF0FFF000) 11 0 = 0 := bits_and_of_zeros (lo := 0) (n := 11) (by decide) w
  rw [← hop, ← hreserved, ← BitVec.toNat_inj, toNat_opcodeWord]
  have hlt := (w &&& 0xF0FFF000).isLt
  simp only [bits] at hsp hidx ⊢
  omega

/-- The mask of format P keeps the opcode and the reserved bits. -/
theorem and_maskP_eq_iff (w : Word) (op : BitVec 4) :
    w &&& 0xFFFFFFFC = opcodeWord op ↔ bits w 31 28 = op.toNat ∧ bits w 27 2 = 0 := by
  have hop : bits (w &&& 0xFFFFFFFC) 31 28 = _ := bits_and_of_ones (lo := 28) (n := 3) (by decide) w
  have hreserved : bits (w &&& 0xFFFFFFFC) 27 2 = _ := bits_and_of_ones (lo := 2) (n := 25) (by decide) w
  have hpart : bits (w &&& 0xFFFFFFFC) 1 0 = 0 := bits_and_of_zeros (lo := 0) (n := 1) (by decide) w
  rw [← hop, ← hreserved, ← BitVec.toNat_inj, toNat_opcodeWord]
  have hlt := (w &&& 0xFFFFFFFC).isLt
  simp only [bits] at hpart ⊢
  omega

/-- The mask of format Z keeps every bit. -/
theorem and_maskZ_eq_iff (w : Word) (op : BitVec 4) :
    w &&& 0xFFFFFFFF = opcodeWord op ↔ bits w 31 28 = op.toNat ∧ bits w 27 0 = 0 := by
  have hw := w.isLt
  rw [show (0xFFFFFFFF : Word) = BitVec.allOnes 32 from rfl, BitVec.and_allOnes, ← BitVec.toNat_inj, toNat_opcodeWord]
  simp only [bits]
  omega

/-- Settles O5: each mask of the map tests the opcode and the reserved bits of the row's format, as the decoder does. -/
theorem opcodeMapSelectsRows : Obligations.OpcodeMapSelectsRows := by
  unfold Obligations.OpcodeMapSelectsRows
  intro c
  refine ⟨.trans ?_ (and_maskE_eq_iff c.cmd 1).symm, .trans ?_ (and_maskE_eq_iff c.cmd 2).symm,
    .trans ?_ (and_maskZ_eq_iff c.cmd 3).symm, .trans ?_ (and_maskZ_eq_iff c.cmd 4).symm,
    .trans ?_ (and_maskP_eq_iff c.cmd 5).symm, .trans ?_ (and_maskP_eq_iff c.cmd 6).symm,
    .trans ?_ (and_maskP_eq_iff c.cmd 7).symm, .trans ?_ (and_maskZ_eq_iff c.cmd 8).symm, fun hop i h => ?_⟩
  case refine_9 =>
    have := decode_eq_ok_iff.mp h
    omega
  all_goals simp [decode_eq_ok_iff]

/-- Settles O1: each word is evaluated. -/
theorem specWordsDecode : Obligations.SpecWordsDecode := by
  unfold Obligations.SpecWordsDecode
  decide

end Sys2Proof.Machine
end

section
/-! PROOFS. Steps (30_encoding.md R60; 70_reset_and_hazards.md R180 to R182): every step answers, what it answers to a
command and to a reset event, and the invariants of the registers, the storages and `STATUS`. -/

namespace Sys2Proof.Machine

/-! ### Every step answers -/

theorem exec_answers (i : Instr) (s : State) : ∃ t, exec i s = .next t := by
  cases hwf : i.wellFormed with
  | false => exact ⟨_, exec_of_not_wellFormed hwf s⟩
  | true =>
    obtain ⟨t, ht, -⟩ := exec_completesLegally hwf s
    exact ⟨t, ht⟩

theorem execCommand_answers (c : Command) (s : State) : ∃ t, execCommand c s = .next t := by
  unfold execCommand
  cases decode c with
  | ok i => exact exec_answers i s
  | error e => exact ⟨_, rfl⟩

theorem step_of_idle {s : State} (h : s.pending = []) : step s = .next s := by
  simp only [step, h]

/-- Settles O9, by what is presented. -/
theorem everyStepAnswers : Obligations.EveryStepAnswers := by
  unfold Obligations.EveryStepAnswers
  intro s
  cases hp : s.pending with
  | nil => exact ⟨s, step_of_idle hp⟩
  | cons input rest =>
    cases input with
    | command c =>
      rw [step_of_command hp]
      exact execCommand_answers c _
    | reset contents => exact ⟨_, step_of_reset hp⟩

/-- Settles O10: the arm of the step for an empty list. -/
theorem idleStepKeepsState : Obligations.IdleStepKeepsState := by
  unfold Obligations.IdleStepKeepsState
  exact fun _ => step_of_idle

theorem execCommand_of_decode {c : Command} {i : Instr} (h : decode c = .ok i) (s : State) :
    execCommand c s = exec i s := by
  simp only [execCommand, h]

/-- Settles O2: a step executes the command it takes, and that runs what the word decodes to. -/
theorem stepRunsDecodedCommand : Obligations.StepRunsDecodedCommand := by
  unfold Obligations.StepRunsDecodedCommand
  intro s c rest i hp hdecode
  rw [step_of_command hp, execCommand_of_decode hdecode]

/-! ### The response to a command -/

/-- What an `EWR` ends with: the write of the element it names, `IllegalCommand` where it names none. -/
def ewrResult (sp : BitVec 4) (idx : BitVec 12) (value : Word) (s : State) : Except StatusCode State :=
  match element sp idx with
  | none => .error .illegalCommand
  | some e => writeElement s e value

theorem exec_ewr_eq_finish (sp : BitVec 4) (idx : BitVec 12) (value : Word) (s : State) :
    exec (.ewr sp idx value) s = finish (ewrResult sp idx value s) s := by
  simp only [exec, execEwr, ewrResult]
  cases element sp idx <;> rfl

/-- A command that ends with `finish` answers read data 0. -/
theorem finish_rdata {result : Except StatusCode State} {s t : State} (h : finish result s = .next t) :
    ∃ rs code, t.responses = rs ++ [{ status := code, rdata := 0 }] := by
  obtain ⟨u, -, rfl⟩ | ⟨code, -, rfl⟩ := finish_eq_next.mp h
  · exact ⟨u.responses, .ok, rfl⟩
  · exact ⟨s.responses, code, rfl⟩

/-- Only `ERD` answers read data other than 0. -/
theorem exec_rdata {i : Instr} {s t : State} (h : exec i s = .next t) :
    (∃ rs code, t.responses = rs ++ [{ status := code, rdata := 0 }]) ∨ ∃ sp idx, i = .erd sp idx := by
  cases i with
  | erd sp idx => exact .inr ⟨sp, idx, rfl⟩
  | ewr sp idx value => exact .inl (finish_rdata (exec_ewr_eq_finish sp idx value s ▸ h))
  | tzero =>
    cases h
    exact .inl ⟨s.responses, .ok, rfl⟩
  | tmac | plda p | pldb p | pdiag p | hcs => exact .inl (finish_rdata h)

/-- The response to a command: read data other than 0 comes only with the status OK. -/
theorem State.Completes.response_rdata {s t : State} (h : s.Completes t) :
    ∃ r : Response, t.responses = s.responses ++ [r] ∧ (r.rdata ≠ 0 → r.status = .ok) := by
  cases h with
  | ok rdata same => exact ⟨⟨.ok, rdata⟩, by rw [thenOk_responses, same.responses], fun _ => rfl⟩
  | raised code => exact ⟨⟨code, 0⟩, raise_responses code s, fun hne => absurd rfl hne⟩

theorem State.Completes.pending {s t : State} (h : s.Completes t) : t.pending = s.pending := by
  cases h with
  | ok rdata same => exact same.pending
  | raised code => rfl

/-- A command whose opcode is not that of `ERD` answers read data 0. -/
theorem execCommand_rdata {c : Command} {s t : State} (h : execCommand c s = .next t) (hop : bits c.cmd 31 28 ≠ 2) :
    ∃ rs code, t.responses = rs ++ [{ status := code, rdata := 0 }] := by
  cases hd : decode c with
  | ok i =>
    rw [execCommand_of_decode hd] at h
    obtain hzero | ⟨sp, idx, rfl⟩ := exec_rdata h
    · exact hzero
    · simp [decode_eq_ok_iff, hop] at hd
  | error e =>
    simp only [execCommand, hd] at h
    cases h
    exact ⟨s.responses, .illegalCommand, rfl⟩

/-- One response to each command, with read data 0 unless it is a successful `ERD` (30_encoding.md R60). -/
theorem execCommand_response {c : Command} {s t : State} (h : execCommand c s = .next t) :
    ∃ r : Response, t.responses = s.responses ++ [r] ∧ (r.rdata ≠ 0 → r.status = .ok ∧ bits c.cmd 31 28 = 2) := by
  obtain ⟨r, hr, hok⟩ := (execCommand_completes h).response_rdata
  refine ⟨r, hr, fun hne => ⟨hok hne, ?_⟩⟩
  by_contra hop
  obtain ⟨rs, code, hzero⟩ := execCommand_rdata h hop
  obtain ⟨-, hlast⟩ := List.append_inj' (hr.symm.trans hzero) rfl
  cases hlast
  exact hne rfl

/-- Every format but that of `EWR` leaves the data operand aside (30_encoding.md R60). -/
theorem decode_of_not_ewr {c : Command} (h : bits c.cmd 31 28 ≠ 1) (d : Word) :
    decode { cmd := c.cmd, wdata := d } = decode c := by
  unfold decode
  rw [toNat_opField]
  generalize bits c.cmd 31 28 = op at h ⊢
  split
  case h_1 => exact absurd rfl h
  all_goals rfl

/-- Settles O8: the response is the one that a completed command gives, and the step uses the command only through its
decoding. -/
theorem oneResponsePerCommand : Obligations.OneResponsePerCommand := by
  unfold Obligations.OneResponsePerCommand
  intro s c rest hp
  constructor
  · obtain ⟨t, ht⟩ := execCommand_answers c { s with pending := rest }
    obtain ⟨r, hresponses, hrdata⟩ := execCommand_response ht
    exact ⟨t, r, by rw [step_of_command hp, ht], (execCommand_completes ht).pending, hresponses, hrdata⟩
  · intro hop d
    rw [step_of_command hp, step_of_command rfl]
    simp only [execCommand, decode_of_not_ewr hop]

/-! ### Reset -/

/-- Settles O11: the fields of `State.reset`. -/
theorem resetRegisterValues : Obligations.ResetRegisterValues := by
  unfold Obligations.ResetRegisterValues
  exact ⟨rfl, rfl, rfl, rfl, rfl, rfl, rfl, rfl⟩

theorem read_tabulate_of_lt {w size : Nat} (m : Store w) {j : Nat} (hj : j < size) :
    Store.read (Store.tabulate size (Store.read m)) j = Store.read m j := by
  rw [Store.read_tabulate, if_pos hj]

/-- Settles O12: the storages after a reset tabulate the contents that the event carries. -/
theorem resetEventSetsRegisters : Obligations.ResetEventSetsRegisters := by
  unfold Obligations.ResetEventSetsRegisters
  intro s contents rest hp
  refine ⟨afterReset contents rest, step_of_reset hp, rfl, rfl, rfl, rfl, rfl, rfl, rfl, rfl, fun j hj => ⟨?_, ?_⟩,
    fun j hj => ?_, fun j hj => ⟨?_, ?_⟩, fun j hj => ?_, rfl, rfl⟩
  all_goals
    simp only [afterReset, loadContents, State.vAt]
    exact read_tabulate_of_lt _ hj

/-! ### The registers and storages stay in range -/

/-- Settles O13: the registers are 0, and no storage lists an element. -/
theorem registersInRangeAtReset : Obligations.RegistersInRangeAtReset := by
  unfold Obligations.RegistersInRangeAtReset
  constructor
  case ta | tb | acc | fmem | kmem | v => exact Store.wf_nil _
  all_goals decide

theorem inv_afterReset (contents : Contents) (rest : List HostInput) : (afterReset contents rest).Inv := by
  constructor
  case ta | tb | acc | fmem | kmem | v =>
    simp only [afterReset, loadContents]
    exact Store.wf_tabulate _ _
  all_goals exact Nat.zero_le _

theorem State.Inv.thenOk {s : State} (h : s.Inv) (rdata : Word) : (s.thenOk rdata).Inv := { h with }

theorem State.Inv.raise {s : State} (h : s.Inv) (code : StatusCode) : (raise code s).Inv := { h with }

theorem State.Inv.withPending {s : State} (h : s.Inv) (rest : List HostInput) :
    State.Inv { s with pending := rest } := { h with }

/-- A tile shape that a write takes lies within the capacity (42_access.md R136). -/
theorem tileShapeOfWord_le {maxCols : Nat} {value : Word} {shape : Shape}
    (h : tileShapeOfWord maxCols value = .ok shape) : shape.rows.toNat ≤ 16 ∧ shape.cols.toNat ≤ maxCols := by
  obtain ⟨hrows, hcols, hok⟩ | ⟨-, herror⟩ := tileShapeOfWord_cases maxCols value
  · cases hok.symm.trans h
    exact ⟨hrows, hcols⟩
  · cases herror.symm.trans h

/-- A checked write that succeeds is the write of the value its check answers. -/
theorem map_eq_ok {α : Type} {check : Except StatusCode α} {store : α → State} {u : State}
    (h : check.map store = .ok u) : ∃ a, check = .ok a ∧ store a = u := by
  cases check with
  | ok a => exact ⟨a, rfl, Except.ok.inj h⟩
  | error code => cases h

theorem csrWrite_inv {s u : State} {r : Csr} {value : Word} (hs : s.Inv) (h : csrWrite s r value = .ok u) : u.Inv := by
  cases r with
  | status | vLen => cases h
  | ctrl | fShape | kShape =>
    cases h
    exact { hs with }
  | taShape =>
    obtain ⟨shape, hshape, rfl⟩ := map_eq_ok h
    obtain ⟨hrows, hcols⟩ := tileShapeOfWord_le hshape
    exact { hs with taRows := hrows, taCols := hcols }
  | tbShape =>
    obtain ⟨shape, hshape, rfl⟩ := map_eq_ok h
    obtain ⟨hrows, hcols⟩ := tileShapeOfWord_le hshape
    exact { hs with tbRows := hrows, tbCols := hcols }
  | accShape =>
    obtain ⟨shape, hshape, rfl⟩ := map_eq_ok h
    obtain ⟨hrows, hcols⟩ := tileShapeOfWord_le hshape
    exact { hs with accRows := hrows, accCols := hcols }

theorem writeElement_inv {s u : State} {e : Element} {value : Word} (hs : s.Inv) (he : elementInRange e)
    (h : writeElement s e value = .ok u) : u.Inv := by
  cases e with
  | ta i =>
    obtain ⟨b, rfl⟩ := exists_ok_of_map_eq_ok h
    exact { hs with ta := Store.wf_write hs.ta b he }
  | tb i =>
    obtain ⟨b, rfl⟩ := exists_ok_of_map_eq_ok h
    exact { hs with tb := Store.wf_write hs.tb b he }
  | f i =>
    obtain ⟨b, rfl⟩ := exists_ok_of_map_eq_ok h
    exact { hs with fmem := Store.wf_write hs.fmem b he }
  | k i =>
    obtain ⟨b, rfl⟩ := exists_ok_of_map_eq_ok h
    exact { hs with kmem := Store.wf_write hs.kmem b he }
  | acc i =>
    cases h
    exact { hs with acc := Store.wf_write hs.acc value he }
  | v i => cases h
  | csr r => exact csrWrite_inv hs h

theorem ewrResult_inv {s u : State} {sp : BitVec 4} {idx : BitVec 12} {value : Word} (hs : s.Inv)
    (h : ewrResult sp idx value s = .ok u) : u.Inv := by
  unfold ewrResult at h
  cases he : element sp idx with
  | none =>
    rw [he] at h
    cases h
  | some e =>
    rw [he] at h
    exact writeElement_inv hs (element_inRange he) h

theorem State.Inv.zeroAcc {s : State} (h : s.Inv) : (zeroAcc s).Inv := { h with acc := Store.wf_nil 256 }

theorem State.Inv.tmac {s : State} (h : s.Inv) : (tmac s).Inv := { h with acc := wf_tmac_acc s }

theorem State.Inv.loadLeft {s : State} (h : s.Inv) (i : Nat) : (loadLeft i s).Inv :=
  { h with taRows := Nat.le_refl 16, taCols := Nat.le_refl 64, ta := loadLeft_ta i s ▸ wf_tileOf _ }

theorem State.Inv.loadRight {s : State} (h : s.Inv) (i : Nat) : (loadRight i s).Inv :=
  { h with tbRows := Nat.le_refl 16, tbCols := Nat.le_refl 64, tb := loadRight_tb i s ▸ wf_tileOf _ }

/-- Four segments of Q = N div 4 entries each fill at most the 64 entries of V. -/
theorem segment_end_le {s : State} (hcols : s.fShape.cols.toNat ≤ 64) {i : Nat} (hi : i < 4) :
    s.pipeQ * i + s.pipeQ ≤ 64 := by
  have hq : s.pipeQ ≤ 16 := Nat.div_le_of_le_mul hcols
  have hseg : s.pipeQ * i ≤ s.pipeQ * 3 := Nat.mul_le_mul_left _ (Nat.le_of_lt_succ hi)
  omega

theorem State.Inv.extractDiag {s : State} (h : s.Inv) (hcols : s.fShape.cols.toNat ≤ 64) {i : Nat} (hi : i < 4) :
    (extractDiag i s).Inv :=
  { h with
    vLen := hcols
    v := wf_foldl_write h.v (s.pipeQ * i) (fun k => s.accAt k k) s.pipeQ (segment_end_le hcols hi) }

theorem State.Inv.pairStep {s : State} (h : s.Inv) (hcols : s.fShape.cols.toNat ≤ 64) {i : Nat} (hi : i < 4) :
    (pairStep s i).Inv :=
  (((h.loadLeft i).loadRight i).zeroAcc.tmac).extractDiag hcols hi

theorem State.Inv.foldl_pairStep {s : State} (h : s.Inv) (hcols : s.fShape.cols.toNat ≤ 64) {pairs : Nat}
    (hpairs : pairs ≤ 4) : ((List.range pairs).foldl Machine.pairStep s).Inv := by
  induction pairs with
  | zero => exact h
  | succ pairs ih =>
    have hsame := State.SamePairInputs.foldl_pairStep s pairs
    rw [List.range_succ, List.foldl_append]
    exact (ih (Nat.le_of_lt hpairs)).pairStep (hsame.fShape ▸ hcols) hpairs

theorem State.Inv.hadamardColumnSum {s : State} (h : s.Inv) (hcols : s.fShape.cols.toNat ≤ 64) :
    (hadamardColumnSum s).Inv := by
  have hstart : State.Inv { s with accShape := { rows := 16, cols := 16 } } :=
    { h with accRows := Nat.le_refl 16, accCols := Nat.le_refl 16 }
  exact hstart.foldl_pairStep hcols (Nat.le_refl 4)

/-- A command that ends with `finish` keeps the invariant when its effect does. -/
theorem finish_inv {result : Except StatusCode State} {s t : State} (hs : s.Inv) (h : finish result s = .next t)
    (heffect : ∀ u, result = .ok u → u.Inv) : t.Inv := by
  obtain ⟨u, hu, rfl⟩ | ⟨code, -, rfl⟩ := finish_eq_next.mp h
  · exact (heffect u hu).thenOk 0
  · exact hs.raise code

theorem finish_preflight_inv {check : StatusCode} {effect s t : State} (hs : s.Inv)
    (h : finish (preflight check effect) s = .next t) (heffect : check = .ok → effect.Inv) : t.Inv := by
  obtain ⟨hok, rfl⟩ | ⟨-, rfl⟩ := finish_preflight_eq_next.mp h
  · exact (heffect hok).thenOk 0
  · exact hs.raise check

/-- A Pipeline command keeps the invariant when its operation does on shapes of at most 64 columns. -/
theorem RunsBehindPipeCheck.inv {i : Instr} {op : State → State} (hrun : RunsBehindPipeCheck i op) {s t : State}
    (hs : s.Inv) (h : exec i s = .next t) (hop : s.fShape.cols.toNat ≤ 64 → (op s).Inv) : t.Inv := by
  rw [hrun s] at h
  refine finish_preflight_inv hs h fun hok => hop ?_
  obtain ⟨-, -, -, -, hcols⟩ := (pipeCheck_eq_ok s).mp hok
  exact hcols

theorem exec_inv {i : Instr} {s t : State} (hs : s.Inv) (h : exec i s = .next t) : t.Inv := by
  cases i with
  | ewr sp idx value =>
    rw [exec_ewr_eq_finish] at h
    exact finish_inv hs h fun _ => ewrResult_inv hs
  | erd sp idx =>
    cases he : element sp idx with
    | none =>
      simp only [exec, execErd, he] at h
      cases h
      exact hs.raise .illegalCommand
    | some e =>
      rw [exec_erd_of_element he] at h
      cases h
      exact hs.thenOk _
  | tzero =>
    cases h
    exact hs.zeroAcc.thenOk 0
  | tmac => exact finish_preflight_inv hs h fun _ => hs.tmac
  | plda p => exact (runsBehindPipeCheck_plda p).inv hs h fun _ => hs.loadLeft p.toNat
  | pldb p => exact (runsBehindPipeCheck_pldb p).inv hs h fun _ => hs.loadRight p.toNat
  | pdiag p => exact (runsBehindPipeCheck_pdiag p).inv hs h fun hcols => hs.extractDiag hcols p.isLt
  | hcs => exact runsBehindPipeCheck_hcs.inv hs h hs.hadamardColumnSum

theorem execCommand_inv {c : Command} {s t : State} (hs : s.Inv) (h : execCommand c s = .next t) : t.Inv := by
  cases hd : decode c with
  | ok i => exact exec_inv hs (execCommand_of_decode hd s ▸ h)
  | error e =>
    simp only [execCommand, hd] at h
    cases h
    exact hs.raise .illegalCommand

/-! ### Invariants of a step -/

/-- A property that commands keep, that does not depend on what is presented, and that holds after every reset event is
kept by every step. -/
theorem step_keeps {P : State → Prop} (hpending : ∀ s rest, P s → P { s with pending := rest })
    (hcommand : ∀ c s t, P s → execCommand c s = .next t → P t) (hreset : ∀ contents rest, P (afterReset contents rest))
    {s t : State} (hs : P s) (h : step s = .next t) : P t := by
  cases hp : s.pending with
  | nil =>
    rw [step_of_idle hp] at h
    cases h
    exact hs
  | cons input rest =>
    cases input with
    | command c =>
      rw [step_of_command hp] at h
      exact hcommand c _ t (hpending s rest hs) h
    | reset contents =>
      rw [step_of_reset hp] at h
      cases h
      exact hreset contents rest

/-- Settles O14: each operation keeps the ranges and the canonical forms, and so does every command and reset event. -/
theorem registersStayInRange : Obligations.RegistersStayInRange := by
  unfold Obligations.RegistersStayInRange
  exact fun s t => step_keeps (fun _ rest hs => hs.withPending rest) (fun _ _ _ => execCommand_inv) inv_afterReset

/-! ### `STATUS` keeps telling the responses -/

/-- Settles O15: no response, and a clear `STATUS`. -/
theorem statusTellsAtReset : Obligations.StatusTellsAtReset := by
  unfold Obligations.StatusTellsAtReset
  exact ⟨rfl, rfl, rfl, rfl, rfl⟩

theorem statusTells_afterReset (contents : Contents) (rest : List HostInput) :
    (afterReset contents rest).StatusTells := ⟨rfl, rfl, rfl, rfl, rfl⟩

theorem answered_append {s t : State} {r : Response} (h : t.responses = s.responses ++ [r]) (code : StatusCode) :
    t.answered code = (s.answered code || r.status == code) := by
  simp [State.answered, h]

/-- One more response, recorded in `STATUS`, keeps `STATUS` telling the responses. -/
theorem State.StatusTells.respond {s t : State} {r : Response} (hs : s.StatusTells)
    (hresponses : t.responses = s.responses ++ [r]) (hstatus : t.status = recordStatus r.status s.status) :
    t.StatusTells := by
  obtain ⟨hlast, hsm, hdtl, hoor, hill⟩ := recordStatus_fields r.status s.status
  constructor
  case last => simp [hstatus, hlast, hresponses]
  case smSeen => rw [hstatus, hsm, hs.smSeen, answered_append hresponses]
  case dtlSeen => rw [hstatus, hdtl, hs.dtlSeen, answered_append hresponses]
  case oorSeen => rw [hstatus, hoor, hs.oorSeen, answered_append hresponses]
  case illSeen => rw [hstatus, hill, hs.illSeen, answered_append hresponses]

theorem execCommand_statusTells {c : Command} {s t : State} (hs : s.StatusTells) (h : execCommand c s = .next t) :
    t.StatusTells := by
  obtain ⟨r, hresponses, hstatus⟩ := (execCommand_completes h).response
  exact hs.respond hresponses hstatus

/-- Settles O16: a command gives one response and records its code, and a reset event clears both records. -/
theorem statusKeepsTelling : Obligations.StatusKeepsTelling := by
  unfold Obligations.StatusKeepsTelling
  exact fun s t => step_keeps (fun _ _ hs => { hs with }) (fun _ _ _ => execCommand_statusTells) statusTells_afterReset

end Sys2Proof.Machine
end

section
/-! PROOFS. What the code of a command depends on (60_exceptions.md R152, R157), and which commands write each piece of
the state (10_state.md R11 to R22). -/

namespace Sys2Proof.Machine

/-! ### The code of a command -/

/-- The code that a checked result carries. -/
def resultCode {α : Type} : Except StatusCode α → StatusCode
  | .ok _ => .ok
  | .error code => code

theorem resultCode_map {α β : Type} (check : Except StatusCode α) (store : α → β) :
    resultCode (check.map store) = resultCode check := by
  cases check <;> rfl

theorem resultCode_preflight (check : StatusCode) (effect : State) : resultCode (preflight check effect) = check := by
  by_cases h : check = .ok
  · subst h
    rfl
  · rw [preflight_error h]
    rfl

theorem finish_last {result : Except StatusCode State} {s t : State} (h : finish result s = .next t) :
    t.status.last = resultCode result := by
  obtain ⟨u, rfl, rfl⟩ | ⟨code, rfl, rfl⟩ := finish_eq_next.mp h
  · rfl
  · rw [raise_status, (recordStatus_fields code s.status).1, resultCode]

/-- The code an instruction completes with. -/
def instrCode (i : Instr) (s : State) : StatusCode :=
  match i with
  | .ewr sp idx value => resultCode (ewrResult sp idx value s)
  | .erd sp idx => if readLegal sp idx then .ok else .illegalCommand
  | .tzero => .ok
  | .tmac => tmacCheck s
  | .plda _ | .pldb _ | .pdiag _ | .hcs => pipeCheck s

theorem execErd_last {sp : BitVec 4} {idx : BitVec 12} {s t : State} (h : exec (.erd sp idx) s = .next t) :
    t.status.last = if readLegal sp idx then .ok else .illegalCommand := by
  cases he : element sp idx with
  | none =>
    simp only [exec, execErd, he] at h
    cases h
    simp [readLegal, he, State.thenIllegal]
  | some e =>
    rw [exec_erd_of_element he] at h
    cases h
    simp [readLegal, he]

theorem exec_last {i : Instr} {s t : State} (h : exec i s = .next t) : t.status.last = instrCode i s := by
  cases i with
  | ewr sp idx value => exact finish_last (exec_ewr_eq_finish sp idx value s ▸ h)
  | erd sp idx => exact execErd_last h
  | tzero =>
    cases h
    rfl
  | tmac | plda p | pldb p | pdiag p | hcs => exact (finish_last h).trans (resultCode_preflight _ _)

/-! ### What the code depends on -/

/-- Two states agree in all that a check reads: `STRICT` and the five shape registers (60_exceptions.md R152). -/
structure State.SameControl (s u : State) : Prop where
  strict : s.strict = u.strict
  taShape : s.taShape = u.taShape
  tbShape : s.tbShape = u.tbShape
  accShape : s.accShape = u.accShape
  fShape : s.fShape = u.fShape
  kShape : s.kShape = u.kShape

theorem resultCode_csrWrite (s u : State) (r : Csr) (value : Word) :
    resultCode (csrWrite s r value) = resultCode (csrWrite u r value) := by
  cases r with
  | ctrl | status | fShape | kShape | vLen => rfl
  | taShape | tbShape | accShape => simp only [csrWrite, resultCode_map]

theorem resultCode_writeElement {s u : State} (hstrict : s.strict = u.strict) (e : Element) (value : Word) :
    resultCode (writeElement s e value) = resultCode (writeElement u e value) := by
  cases e with
  | acc i | v i => rfl
  | csr r => exact resultCode_csrWrite s u r value
  | ta i | tb i | f i | k i => simp only [writeElement, resultCode_map, hstrict]

theorem resultCode_ewrResult {s u : State} (hstrict : s.strict = u.strict) (sp : BitVec 4) (idx : BitVec 12)
    (value : Word) : resultCode (ewrResult sp idx value s) = resultCode (ewrResult sp idx value u) := by
  unfold ewrResult
  cases element sp idx with
  | none => rfl
  | some e => exact resultCode_writeElement hstrict e value

theorem tmacCheck_congr {s u : State} (h : s.SameControl u) : tmacCheck s = tmacCheck u := by
  simp only [tmacCheck, h.taShape, h.tbShape, h.accShape]

theorem pipeCheck_congr {s u : State} (h : s.SameControl u) : pipeCheck s = pipeCheck u := by
  unfold pipeCheck State.pipeM State.pipeN
  rw [h.fShape, h.kShape]

theorem code_congr {s u : State} (h : s.SameControl u) (i : Instr) : instrCode i s = instrCode i u := by
  cases i with
  | ewr sp idx value => exact resultCode_ewrResult h.strict sp idx value
  | erd sp idx | tzero => rfl
  | tmac => exact tmacCheck_congr h
  | plda p | pldb p | pdiag p | hcs => exact pipeCheck_congr h

/-- Settles O19: the code is a function of what the checks read. -/
theorem checksIgnoreData : Obligations.ChecksIgnoreData := by
  unfold Obligations.ChecksIgnoreData
  intro i s u t w hstrict hta htb hacc hf hk ht hw
  rw [exec_last ht, exec_last hw, code_congr ⟨hstrict, hta, htb, hacc, hf, hk⟩]

theorem sameControl_raise (code : StatusCode) (s : State) : (raise code s).SameControl s :=
  ⟨rfl, rfl, rfl, rfl, rfl, rfl⟩

/-- Settles O20: raising an error changes nothing that the checks read. -/
theorem failedCommandFailsAgain : Obligations.FailedCommandFailsAgain := by
  unfold Obligations.FailedCommandFailsAgain
  intro i s t u ht hlast hu
  rw [exec_last hu, exec_last ht]
  obtain ⟨code, rfl⟩ := (exec_completes ht).exists_eq_raise hlast
  exact code_congr (sameControl_raise code s) i

/-! ### Who writes what -/

theorem idx_of_csrOfNumber {n : Nat} {r : Csr} (h : csrOfNumber n = some r) : n = (csrNumber r).toNat := by
  unfold csrOfNumber at h
  split at h <;> cases h <;> rfl

/-- The operands that name a CSR are the code of the space and the number of the register. -/
theorem operands_of_element_csr {sp : BitVec 4} {idx : BitVec 12} {r : Csr} (h : element sp idx = some (.csr r)) :
    sp = 7 ∧ idx = csrNumber r := by
  have hsp : sp = 7 := eq_spaceCode_of_element h
  subst hsp
  obtain ⟨-, hr⟩ := Option.ite_none_right_eq_some.mp h
  obtain ⟨r', hr', hcsr⟩ := Option.map_eq_some_iff.mp hr
  cases hcsr
  exact ⟨rfl, BitVec.eq_of_toNat_eq (idx_of_csrOfNumber hr')⟩

/-- The commands that write each piece of state (10_state.md R11 to R13, R17, R18, R20, R22): where `t` differs from
`s`, `i` is one of the piece's writers. -/
structure WritesItsOwn (i : Instr) (s t : State) : Prop where
  ta : t.ta ≠ s.ta → (∃ idx value, i = .ewr 1 idx value) ∨ (∃ p, i = .plda p) ∨ i = .hcs
  tb : t.tb ≠ s.tb → (∃ idx value, i = .ewr 2 idx value) ∨ (∃ p, i = .pldb p) ∨ i = .hcs
  acc : t.acc ≠ s.acc → (∃ idx value, i = .ewr 3 idx value) ∨ i = .tzero ∨ i = .tmac ∨ i = .hcs
  fmem : t.fmem ≠ s.fmem → ∃ idx value, i = .ewr 4 idx value
  kmem : t.kmem ≠ s.kmem → ∃ idx value, i = .ewr 5 idx value
  v : t.v ≠ s.v → (∃ p, i = .pdiag p) ∨ i = .hcs
  vLen : t.vLen ≠ s.vLen → (∃ p, i = .pdiag p) ∨ i = .hcs
  strict : t.strict ≠ s.strict → ∃ value, i = .ewr 7 0 value
  taShape : t.taShape ≠ s.taShape → (∃ value, i = .ewr 7 2 value) ∨ (∃ p, i = .plda p) ∨ i = .hcs
  tbShape : t.tbShape ≠ s.tbShape → (∃ value, i = .ewr 7 3 value) ∨ (∃ p, i = .pldb p) ∨ i = .hcs
  accShape : t.accShape ≠ s.accShape → (∃ value, i = .ewr 7 4 value) ∨ i = .hcs
  fShape : t.fShape ≠ s.fShape → ∃ value, i = .ewr 7 5 value
  kShape : t.kShape ≠ s.kShape → ∃ value, i = .ewr 7 6 value

theorem writesItsOwn_raise (i : Instr) (code : StatusCode) (s : State) : WritesItsOwn i s (raise code s) := by
  constructor <;> exact absurd rfl

theorem csrWrite_writesItsOwn {r : Csr} {value : Word} {s u : State} (h : csrWrite s r value = .ok u) :
    WritesItsOwn (.ewr 7 (csrNumber r) value) s u := by
  cases r with
  | status | vLen => cases h
  | ctrl | fShape | kShape =>
    cases h
    constructor <;> simp [csrNumber]
  | taShape | tbShape | accShape =>
    obtain ⟨shape, rfl⟩ := exists_ok_of_map_eq_ok h
    constructor <;> simp [csrNumber]

theorem writeElement_writesItsOwn {sp : BitVec 4} {idx : BitVec 12} {e : Element} (he : element sp idx = some e)
    {value : Word} {s u : State} (h : writeElement s e value = .ok u) : WritesItsOwn (.ewr sp idx value) s u := by
  have hsp := eq_spaceCode_of_element he
  cases e with
  | ta i | tb i | f i | k i =>
    obtain ⟨b, rfl⟩ := exists_ok_of_map_eq_ok h
    constructor <;> simp [hsp, elementSpace, spaceCode]
  | acc i =>
    cases h
    constructor <;> simp [hsp, elementSpace, spaceCode]
  | v i => cases h
  | csr r =>
    obtain ⟨rfl, rfl⟩ := operands_of_element_csr he
    exact csrWrite_writesItsOwn h

theorem ewrResult_writesItsOwn {sp : BitVec 4} {idx : BitVec 12} {value : Word} {s u : State}
    (h : ewrResult sp idx value s = .ok u) : WritesItsOwn (.ewr sp idx value) s u := by
  unfold ewrResult at h
  cases he : element sp idx with
  | none =>
    rw [he] at h
    cases h
  | some e =>
    rw [he] at h
    exact writeElement_writesItsOwn he h

theorem WritesItsOwn.thenOk {i : Instr} {s u : State} (h : WritesItsOwn i s u) (rdata : Word) :
    WritesItsOwn i s (u.thenOk rdata) := { h with }

theorem finish_preflight_writesItsOwn {i : Instr} {check : StatusCode} {effect s t : State}
    (h : finish (preflight check effect) s = .next t) (heffect : WritesItsOwn i s effect) : WritesItsOwn i s t := by
  obtain ⟨-, rfl⟩ | ⟨-, rfl⟩ := finish_preflight_eq_next.mp h
  · exact heffect.thenOk 0
  · exact writesItsOwn_raise i check s

theorem exec_writesItsOwn {i : Instr} {s t : State} (h : exec i s = .next t) : WritesItsOwn i s t := by
  cases i with
  | ewr sp idx value =>
    rw [exec_ewr_eq_finish] at h
    obtain ⟨u, hu, rfl⟩ | ⟨code, -, rfl⟩ := finish_eq_next.mp h
    · exact (ewrResult_writesItsOwn hu).thenOk 0
    · exact writesItsOwn_raise _ code s
  | erd sp idx =>
    cases he : element sp idx with
    | none =>
      simp only [exec, execErd, he] at h
      cases h
      exact writesItsOwn_raise _ _ s
    | some e =>
      rw [exec_erd_of_element he] at h
      cases h
      constructor <;> exact absurd rfl
  | tzero =>
    cases h
    constructor <;> simp
  | tmac | plda p | pldb p | pdiag p | hcs =>
    refine finish_preflight_writesItsOwn h ?_
    constructor <;> simp

/-- Settles O21: the fields that each operation leaves as they were. -/
theorem writersOfEachState : Obligations.WritersOfEachState := by
  unfold Obligations.WritersOfEachState
  intro i s t h
  have hw := exec_writesItsOwn h
  exact ⟨hw.ta, hw.tb, hw.acc, hw.fmem, hw.kmem, hw.v, hw.vLen, hw.strict, hw.taShape, hw.tbShape, hw.accShape,
    hw.fShape, hw.kShape, (exec_completes h).pending⟩

end Sys2Proof.Machine
end

section
/-! PROOFS. What `ERD` returns, that it returns what `EWR` stored, the assembler's forms, and the re-viewing of a buffer
(20_memory.md R41 to R47; 30_encoding.md R70; 42_access.md R131 to R138). -/

namespace Sys2Proof.Machine

/-! ### Reading an element -/

theorem toInt_signExtend_byte (b : Byte) : (b.signExtend 32).toInt = b.toInt :=
  BitVec.toInt_signExtend_of_le (by decide)

theorem taAt_div_mod (s : State) (i : Nat) : s.taAt (i / 64) (i % 64) = Store.read s.ta i := by
  rw [State.taAt, tileIndex, Nat.div_add_mod]

theorem tbAt_div_mod (s : State) (i : Nat) : s.tbAt (i / 64) (i % 64) = Store.read s.tb i := by
  rw [State.tbAt, tileIndex, Nat.div_add_mod]

theorem accAt_div_mod (s : State) (i : Nat) : s.accAt (i / 16) (i % 16) = Store.read s.acc i := by
  rw [State.accAt, accIndex, Nat.div_add_mod]

/-- `ERD` of an element whose reading is the sign extension of a byte succeeds with the byte's value. -/
theorem exec_erd_byte {sp : BitVec 4} {idx : BitVec 12} {e : Element} {s : State} {b : Byte}
    (he : element sp idx = some e) (hread : readElement s e = b.signExtend 32) :
    ∃ w : Word, exec (.erd sp idx) s = .next (s.thenOk w) ∧ w.toInt = b.toInt :=
  ⟨_, exec_erd_of_element he s, by rw [hread, toInt_signExtend_byte]⟩

theorem exec_erd_ta {idx : BitVec 12} (hidx : idx.toNat < 1024) (s : State) :
    ∃ w : Word, exec (.erd 1 idx) s = .next (s.thenOk w) ∧ w.toInt = (Store.read s.ta idx.toNat).toInt :=
  exec_erd_byte (element_ta hidx) rfl

theorem exec_erd_tb {idx : BitVec 12} (hidx : idx.toNat < 1024) (s : State) :
    ∃ w : Word, exec (.erd 2 idx) s = .next (s.thenOk w) ∧ w.toInt = (Store.read s.tb idx.toNat).toInt :=
  exec_erd_byte (element_tb hidx) rfl

theorem exec_erd_acc {idx : BitVec 12} (hidx : idx.toNat < 256) (s : State) :
    exec (.erd 3 idx) s = .next (s.thenOk (Store.read s.acc idx.toNat)) :=
  exec_erd_of_element (element_acc hidx) s

theorem exec_erd_v {idx : BitVec 12} (hidx : idx.toNat < 64) (s : State) :
    exec (.erd 6 idx) s = .next (s.thenOk (s.vAt idx.toNat)) :=
  exec_erd_of_element (element_v hidx) s

/-- `ERD` with operands that name an element succeeds (42_access.md R132). -/
theorem exec_erd_of_names {sp : BitVec 4} {idx : BitVec 12} (h : namesElement sp.toNat idx.toNat) (s : State) :
    ∃ w : Word, exec (.erd sp idx) s = .next (s.thenOk w) := by
  obtain ⟨e, he⟩ := Option.isSome_iff_exists.mp ((readLegal_iff sp idx).mpr h)
  exact ⟨_, exec_erd_of_element he s⟩

/-- `ERD` with operands that name no element is illegal (30_encoding.md R66 (c), (d)). -/
theorem exec_erd_of_not_names {sp : BitVec 4} {idx : BitVec 12} (h : ¬namesElement sp.toNat idx.toNat) (s : State) :
    exec (.erd sp idx) s = .next s.thenIllegal :=
  execErd_of_not_readLegal (Bool.eq_false_iff.mpr fun hlegal => h ((readLegal_iff sp idx).mp hlegal)) s

/-- Settles O26, space by space; the illegal operands are those that name no element. -/
theorem elementReads : Obligations.ElementReads := by
  unfold Obligations.ElementReads
  intro s idx
  rw [taAt_div_mod, tbAt_div_mod, accAt_div_mod]
  refine ⟨fun h => exec_erd_ta h s, fun h => exec_erd_tb h s, fun h => exec_erd_acc h s,
    exec_erd_byte (element_f idx.isLt) rfl, exec_erd_byte (element_k idx.isLt) rfl, fun h => exec_erd_v h s,
    fun h => exec_erd_of_names ?_ s, fun sp h => exec_erd_of_not_names ?_ s⟩
  · exact .inr (.inr (.inr (.inr ⟨rfl, h⟩)))
  · unfold namesElement
    omega

/-! ### Reading back what was written -/

/-- The element is one of the five data spaces that the host may write, and the value is in its range. -/
def holdsValue (value : Word) : Element → Prop
  | .ta _ | .tb _ | .f _ | .k _ => -128 ≤ value.toInt ∧ value.toInt ≤ 127
  | .acc _ => True
  | .v _ | .csr _ => False

/-- A byte storage reads back, sign-extended, the value that a checked write of it stored. -/
theorem read_checked_write {strict : Bool} {value : Word} (hrange : -128 ≤ value.toInt ∧ value.toInt ≤ 127)
    (put : Byte → State) (i : Nat) (get : State → Memory)
    (hput : ∀ b, Store.read (get (put b)) i = b) :
    ∃ u, (narrow8 strict value).map put = .ok u ∧ (Store.read (get u) i).signExtend 32 = value := by
  obtain ⟨b, hb, hvalue⟩ := narrow8_inRange strict hrange
  refine ⟨put b, by rw [hb]; rfl, BitVec.eq_of_toInt_eq ?_⟩
  rw [hput, toInt_signExtend_byte, hvalue]

theorem readElement_writeElement {e : Element} {value : Word} (h : holdsValue value e) (s : State) :
    ∃ u, writeElement s e value = .ok u ∧ readElement u e = value := by
  cases e with
  | ta i => exact read_checked_write h _ i State.ta fun b => Store.read_write_same s.ta i b
  | tb i => exact read_checked_write h _ i State.tb fun b => Store.read_write_same s.tb i b
  | f i => exact read_checked_write h _ i State.fmem fun b => Store.read_write_same s.fmem i b
  | k i => exact read_checked_write h _ i State.kmem fun b => Store.read_write_same s.kmem i b
  | acc i => exact ⟨_, rfl, Store.read_write_same s.acc i value⟩
  | v i | csr r => exact h.elim

theorem readElement_thenOk {e : Element} {value : Word} (h : holdsValue value e) (u : State) (rdata : Word) :
    readElement (u.thenOk rdata) e = readElement u e := by
  cases e with
  | ta i | tb i | f i | k i | acc i => rfl
  | v i | csr r => exact h.elim

theorem exec_erd_after_ewr {sp : BitVec 4} {idx : BitVec 12} {e : Element} (he : element sp idx = some e)
    {value : Word} (h : holdsValue value e) (s : State) :
    ∃ t, exec (.ewr sp idx value) s = .next t ∧ exec (.erd sp idx) t = .next (t.thenOk value) := by
  obtain ⟨u, hwrite, hread⟩ := readElement_writeElement h s
  refine ⟨u.thenOk 0, by rw [exec_ewr_of_element he, hwrite, finish_ok], ?_⟩
  rw [exec_erd_of_element he, readElement_thenOk h, hread]

/-- Settles O28, space by space: a storage reads back what it was written. -/
theorem readBackAfterWrite : Obligations.ReadBackAfterWrite := by
  unfold Obligations.ReadBackAfterWrite
  rintro s sp idx value (⟨⟨hsp | hsp, hidx⟩ | hsp | hsp, hlow, hhigh⟩ | ⟨hsp, hidx⟩)
  · obtain rfl : sp = 1 := BitVec.eq_of_toNat_eq hsp
    exact exec_erd_after_ewr (element_ta hidx) ⟨hlow, hhigh⟩ s
  · obtain rfl : sp = 2 := BitVec.eq_of_toNat_eq hsp
    exact exec_erd_after_ewr (element_tb hidx) ⟨hlow, hhigh⟩ s
  · obtain rfl : sp = 4 := BitVec.eq_of_toNat_eq hsp
    exact exec_erd_after_ewr (element_f idx.isLt) ⟨hlow, hhigh⟩ s
  · obtain rfl : sp = 5 := BitVec.eq_of_toNat_eq hsp
    exact exec_erd_after_ewr (element_k idx.isLt) ⟨hlow, hhigh⟩ s
  · obtain rfl : sp = 3 := BitVec.eq_of_toNat_eq hsp
    exact exec_erd_after_ewr (element_acc hidx) trivial s

/-! ### The assembler's forms -/

theorem toNat_ofNat_index {n : Nat} (h : n < 4096) : (BitVec.ofNat 12 n).toNat = n := by
  rw [BitVec.toNat_ofNat, Nat.mod_eq_of_lt h]

theorem tileIndex_lt {r c : Nat} (hr : r < 16) (hc : c < 64) : tileIndex r c < 1024 := by
  unfold tileIndex
  omega

theorem accIndex_lt {r n : Nat} (hr : r < 16) (hn : n < 16) : accIndex r n < 256 := by
  unfold accIndex
  omega

theorem toNat_tileIndex {r c : Nat} (hr : r < 16) (hc : c < 64) :
    (BitVec.ofNat 12 (tileIndex r c)).toNat = tileIndex r c :=
  toNat_ofNat_index (Nat.lt_trans (tileIndex_lt hr hc) (by decide))

theorem toNat_accIndex {r n : Nat} (hr : r < 16) (hn : n < 16) :
    (BitVec.ofNat 12 (accIndex r n)).toNat = accIndex r n :=
  toNat_ofNat_index (Nat.lt_trans (accIndex_lt hr hn) (by decide))

theorem tileIndex_eq_iff {r c r' c' : Nat} (hc : c < 64) (hc' : c' < 64) :
    tileIndex r' c' = tileIndex r c ↔ r' = r ∧ c' = c := by
  unfold tileIndex
  omega

theorem accIndex_eq_iff {r n r' n' : Nat} (hn : n < 16) (hn' : n' < 16) :
    accIndex r' n' = accIndex r n ↔ r' = r ∧ n' = n := by
  unfold accIndex
  omega

/-- The indexed form of a byte tile writes the element it names and no other. -/
theorem ByteWriteRule.at_tileIndex {sp : BitVec 4} {get : State → Memory} {put : State → Memory → State}
    (hrule : ByteWriteRule sp 1024 get put) (s : State) {r c : Nat} (hr : r < 16) (hc : c < 64) {value : Word}
    (hrange : -128 ≤ value.toInt ∧ value.toInt ≤ 127) :
    ∃ m, exec (.ewr sp (BitVec.ofNat 12 (tileIndex r c)) value) s = .next ((put s m).thenOk 0) ∧
      ∀ r' c', r' < 16 → c' < 64 →
        (Store.read m (tileIndex r' c')).toInt
          = if r' = r ∧ c' = c then value.toInt else (Store.read (get s) (tileIndex r' c')).toInt := by
  have hidx := toNat_tileIndex hr hc
  obtain ⟨hwrite, -⟩ := hrule s (BitVec.ofNat 12 (tileIndex r c)) value (by rw [hidx]; exact tileIndex_lt hr hc)
  obtain ⟨m, hexec, hsame, hother⟩ := hwrite hrange
  rw [hidx] at hsame hother
  refine ⟨m, hexec, fun r' c' _ hc' => ?_⟩
  split
  case isTrue h => rw [(tileIndex_eq_iff hc hc').mpr h, hsame]
  case isFalse h => rw [hother _ (mt (tileIndex_eq_iff hc hc').mp h)]

theorem exec_asmWriteACC (s : State) {r n : Nat} (hr : r < 16) (hn : n < 16) (value : Word) :
    ∃ m, exec (asmWriteACC r n value) s = .next (State.thenOk { s with acc := m } 0) ∧
      ∀ r' n', r' < 16 → n' < 16 →
        Store.read m (accIndex r' n') = if r' = r ∧ n' = n then value else s.accAt r' n' := by
  have hidx := toNat_accIndex hr hn
  obtain ⟨m, hexec, hsame, hother⟩ := accumulatorWrites s (BitVec.ofNat 12 (accIndex r n)) value
    (hidx.symm ▸ accIndex_lt hr hn)
  rw [hidx] at hsame hother
  refine ⟨m, hexec, fun r' n' _ hn' => ?_⟩
  split
  case isTrue h => rw [(accIndex_eq_iff hn hn').mpr h, hsame]
  case isFalse h => rw [hother _ (mt (accIndex_eq_iff hn hn').mp h), State.accAt]

theorem exec_asmReadTA (s : State) {r c : Nat} (hr : r < 16) (hc : c < 64) :
    ∃ w : Word, exec (asmReadTA r c) s = .next (s.thenOk w) ∧ w.toInt = (s.taAt r c).toInt := by
  have hidx := toNat_tileIndex hr hc
  have hexec := exec_erd_ta (idx := BitVec.ofNat 12 (tileIndex r c)) (by rw [hidx]; exact tileIndex_lt hr hc) s
  rwa [hidx] at hexec

theorem exec_asmReadTB (s : State) {r c : Nat} (hr : r < 16) (hc : c < 64) :
    ∃ w : Word, exec (asmReadTB r c) s = .next (s.thenOk w) ∧ w.toInt = (s.tbAt r c).toInt := by
  have hidx := toNat_tileIndex hr hc
  have hexec := exec_erd_tb (idx := BitVec.ofNat 12 (tileIndex r c)) (by rw [hidx]; exact tileIndex_lt hr hc) s
  rwa [hidx] at hexec

theorem exec_asmReadACC (s : State) {r n : Nat} (hr : r < 16) (hn : n < 16) :
    exec (asmReadACC r n) s = .next (s.thenOk (s.accAt r n)) := by
  have hidx := toNat_accIndex hr hn
  have hexec := exec_erd_acc (idx := BitVec.ofNat 12 (accIndex r n)) (by rw [hidx]; exact accIndex_lt hr hn) s
  rwa [hidx] at hexec

theorem exec_asmReadV (s : State) {j : Nat} (hj : j < 64) : exec (asmReadV j) s = .next (s.thenOk (s.vAt j)) := by
  have hidx : (BitVec.ofNat 12 j).toNat = j := toNat_ofNat_index (by omega)
  have hexec := exec_erd_v (idx := BitVec.ofNat 12 j) (by rwa [hidx]) s
  rwa [hidx] at hexec

/-- The operand of `SHAPE` carries the two counts in its fields (30_encoding.md R70). -/
theorem bits_shapeOperand {rows cols : Nat} (hrows : rows < 256) (hcols : cols < 256) :
    bits (BitVec.ofNat 32 (rows + 256 * cols)) 7 0 = rows ∧ bits (BitVec.ofNat 32 (rows + 256 * cols)) 15 8 = cols := by
  simp only [bits, BitVec.toNat_ofNat]
  omega

theorem tileShapeFormRule_of_writeRule {r : Csr} {maxCols : Nat} {put : State → Shape → State}
    (hrule : TileShapeWriteRule (csrNumber r) maxCols put) : TileShapeFormRule r maxCols put := by
  intro s rows cols hrows hcols
  obtain ⟨hbeyond, hwithin⟩ := hrule s (BitVec.ofNat 32 (rows + 256 * cols))
  obtain ⟨hlow, hhigh⟩ := bits_shapeOperand hrows hcols
  rw [hlow, hhigh] at hbeyond hwithin
  exact ⟨hwithin, hbeyond⟩

theorem shapeOfWord_shapeOperand {rows cols : Nat} (hrows : rows < 256) (hcols : cols < 256) :
    shapeOfWord (BitVec.ofNat 32 (rows + 256 * cols))
      = { rows := BitVec.ofNat 8 rows, cols := BitVec.ofNat 8 cols } := by
  obtain ⟨hlow, hhigh⟩ := bits_shapeOperand hrows hcols
  rw [shapeOfWord_eq_bits, hlow, hhigh]

theorem exec_asmShape_fShape (s : State) {rows cols : Nat} (hrows : rows < 256) (hcols : cols < 256) :
    exec (asmShape .fShape rows cols) s
      = .next (State.thenOk { s with fShape := { rows := BitVec.ofNat 8 rows, cols := BitVec.ofNat 8 cols } } 0) := by
  rw [← shapeOfWord_shapeOperand hrows hcols]
  exact exec_ewr_csr .fShape _ s

theorem exec_asmShape_kShape (s : State) {rows cols : Nat} (hrows : rows < 256) (hcols : cols < 256) :
    exec (asmShape .kShape rows cols) s
      = .next (State.thenOk { s with kShape := { rows := BitVec.ofNat 8 rows, cols := BitVec.ofNat 8 cols } } 0) := by
  rw [← shapeOfWord_shapeOperand hrows hcols]
  exact exec_ewr_csr .kShape _ s

theorem exec_asmStrict (s : State) (b : Bool) :
    exec (asmStrict b) s = .next (State.thenOk { s with strict := b } 0) := by
  have hbit : (if b then 1 else 0 : Word).getLsbD 0 = b := by cases b <;> rfl
  refine (exec_ewr_csr .ctrl _ s).trans ?_
  simp only [csrWrite, hbit, finish_ok]

/-- Settles O29: each form is the write or the read of the element or register that its expansion names. -/
theorem pseudoInstructionsAddress : Obligations.PseudoInstructionsAddress := by
  unfold Obligations.PseudoInstructionsAddress
  obtain ⟨hta, htb, -⟩ := byteSpaceWrites
  obtain ⟨htaShape, htbShape, haccShape⟩ := tileShapeWrites
  refine ⟨fun s r c value hr hc hlow hhigh => ⟨?_, ?_⟩, fun s r n value hr hn => exec_asmWriteACC s hr hn value,
    fun s r c hr hc => ⟨exec_asmReadTA s hr hc, exec_asmReadTB s hr hc⟩, fun s r n => exec_asmReadACC s,
    fun s j => exec_asmReadV s, tileShapeFormRule_of_writeRule (r := .taShape) htaShape,
    tileShapeFormRule_of_writeRule (r := .tbShape) htbShape, tileShapeFormRule_of_writeRule (r := .accShape) haccShape,
    fun s rows cols hrows hcols => ⟨exec_asmShape_fShape s hrows hcols, exec_asmShape_kShape s hrows hcols⟩,
    exec_asmStrict⟩
  · exact hta.at_tileIndex s hr hc ⟨hlow, hhigh⟩
  · exact htb.at_tileIndex s hr hc ⟨hlow, hhigh⟩

/-! ### Re-viewing a buffer, and the byte image -/

/-- The row-major place of the element that `reshape_rm` takes is the place asked for. -/
theorem rowMajor_div_mod (cols i : Nat) : rowMajor cols (i / cols) (i % cols) = i := by
  rw [rowMajor, Nat.mul_comm, Nat.div_add_mod]

theorem shape_of_toNat (rows cols : BitVec 8) :
    ({ rows := BitVec.ofNat 8 rows.toNat, cols := BitVec.ofNat 8 cols.toNat } : Shape)
      = { rows := rows, cols := cols } :=
  shape_ext (by simp) (by simp)

/-- Settles O30: the flat buffer stays, and both views read it at the same place. -/
theorem shapeWriteReshapes : Obligations.ShapeWriteReshapes := by
  unfold Obligations.ShapeWriteReshapes
  intro s rows cols
  have hf := exec_asmShape_fShape s rows.isLt cols.isLt
  have hk := exec_asmShape_kShape s rows.isLt cols.isLt
  rw [shape_of_toNat] at hf hk
  refine ⟨⟨_, hf, rfl, fun r c => ?_⟩, ⟨_, hk, rfl, fun r c => ?_⟩⟩
  · rw [thenOk_fAt, State.fAt, State.fAt, rowMajor_div_mod, rowMajor]
  · rw [thenOk_kAt, State.kAt, State.kAt, rowMajor_div_mod, rowMajor]

/-- Settles O31: the four bytes, concatenated, have the value of the word. -/
theorem byteImageIsLittleEndian : Obligations.ByteImageIsLittleEndian := by
  unfold Obligations.ByteImageIsLittleEndian
  intro x
  refine ⟨_, _, _, _, rfl, BitVec.eq_of_toNat_eq ?_⟩
  have hx := x.isLt
  simp only [toNat_append_eq, BitVec.extractLsb'_toNat, Nat.shiftRight_eq_div_pow]
  omega

end Sys2Proof.Machine
end

section
/-! PROOFS. More of the Engine (40_engine.md R81 to R86; 41_pipeline.md R109): the order of updates, the region that
`TMAC` reads, and the one packing under which its grouped dot products are a matrix product. -/

namespace Sys2Proof.Machine

/-! ### The order of updates -/

theorem dpbd_dpbd (c : Word) (x y x' y' : Lanes) :
    dpbd (dpbd c x y) x' y' = wrap32 (c.toInt + x.dot y + x'.dot y') := by
  rw [dpbd_eq_wrap32 c, dpbd_wrap32]

/-- Settles O33: two updates wrap one exact sum, in which the order does not matter. -/
theorem dotProductOrderFree : Obligations.DotProductOrderFree := by
  unfold Obligations.DotProductOrderFree
  intro c x y x' y'
  rw [dpbd_dpbd, dpbd_dpbd, add_right_comm]

/-! ### The region that `TMAC` reads -/

/-- Two states agree in all that `TMAC` reads: the tile shapes but for `TA_SHAPE.ROWS`, and the regions that they
select. -/
structure State.SameTmacRegion (s u : State) : Prop where
  taCols : s.taShape.cols = u.taShape.cols
  tbShape : s.tbShape = u.tbShape
  accShape : s.accShape = u.accShape
  ta : ∀ r j, r < s.accShape.rows.toNat → j < s.taShape.cols.toNat → s.taAt r j = u.taAt r j
  tb : ∀ k c, k < s.tbShape.rows.toNat → c < s.tbShape.cols.toNat → s.tbAt k c = u.tbAt k c
  acc : ∀ r n, r < s.accShape.rows.toNat → n < 16 → s.accAt r n = u.accAt r n

theorem State.SameTmacRegion.tileShapesFit {s u : State} (h : s.SameTmacRegion u) (hfit : s.TileShapesFit) :
    u.TileShapesFit := by
  rwa [State.TileShapesFit, ← h.taCols, ← h.tbShape, ← h.accShape]

theorem State.SameTmacRegion.tmacTerm {s u : State} (h : s.SameTmacRegion u) (hfit : s.TileShapesFit) {m n j : Nat}
    (hm : m < s.accShape.rows.toNat) (hn : n < s.accShape.cols.toNat)
    (hj : j < 4 * (s.taShape.cols.toNat / 4)) : s.tmacTerm m n j = u.tmacTerm m n j := by
  obtain ⟨hta, htbRows, htbCols, hacc⟩ := hfit
  have htaAt := h.ta m j hm (by omega)
  have htbAt := h.tb (j / 4) (4 * n + j % 4) (by omega) (by omega)
  rw [State.tmacTerm, State.tmacTerm, htaAt, htbAt]

theorem State.SameTmacRegion.tmac_accAt {s u : State} (h : s.SameTmacRegion u) (hfit : s.TileShapesFit) {m n : Nat}
    (hm : m < 16) (hn : n < 16) : (tmac s).accAt m n = (tmac u).accAt m n := by
  rw [tmac_accAt_closed s hm hn, tmac_accAt_closed u hm hn, ← h.accShape, ← h.taCols]
  by_cases hrow : s.accShape.rows.toNat ≤ m
  · rw [if_pos hrow, if_pos hrow]
  · have hrow' := Nat.lt_of_not_le hrow
    rw [if_neg hrow, if_neg hrow, h.acc m n hrow' hn]
    split
    case isTrue => rfl
    case isFalse hcol =>
      rw [Finset.sum_congr rfl fun j hj => h.tmacTerm hfit hrow' (Nat.lt_of_not_le hcol) (Finset.mem_range.mp hj)]

/-- Settles O39: the closed form reads nothing but the region, and the check nothing but the shapes. -/
theorem tmacReadsOnlyItsRegion : Obligations.TmacReadsOnlyItsRegion := by
  unfold Obligations.TmacReadsOnlyItsRegion
  intro s u t w hfit htaCols htbShape haccShape hta htb hacc ht hw r n hr hn
  have hsame : s.SameTmacRegion u := ⟨htaCols, htbShape, haccShape, hta, htb, hacc⟩
  rw [exec_tmac, if_pos hfit] at ht
  rw [exec_tmac, if_pos (hsame.tileShapesFit hfit)] at hw
  cases ht
  cases hw
  rw [thenOk_accAt, thenOk_accAt, hsame.tmac_accAt hfit hr hn]

/-! ### The packing of TB -/

/-- A sum over rows of four lanes is the sum over all lanes in order. -/
theorem sum_lanes (f : Nat → Int) (groups : Nat) :
    ∑ k ∈ Finset.range groups, ∑ e ∈ Finset.range 4, f (4 * k + e) = ∑ j ∈ Finset.range (4 * groups), f j := by
  induction groups with
  | zero => rfl
  | succ groups ih => rw [Finset.sum_range_succ, ih, Nat.mul_succ, Finset.sum_range_add]

theorem toTileB_lane (B : Matrix8) (k n : Nat) {e : Nat} (he : e < 4) :
    toTileB B k (4 * n + e) = B (4 * k + e) n := by
  have hmod : (4 * n + e) % 4 = e := by omega
  have hdiv : (4 * n + e) / 4 = n := by omega
  rw [toTileB, hmod, hdiv]

/-- The grouped dot products of a tile T with a left row A, read lane by lane. -/
theorem sum_groups_eq (A : Nat → Byte) (T : Matrix8) (n : Nat) :
    ∑ k ∈ Finset.range 16, ∑ e ∈ Finset.range 4, (A (4 * k + e)).toInt * (T k (4 * n + e)).toInt
      = ∑ j ∈ Finset.range 64, (A j).toInt * (T (j / 4) (4 * n + j % 4)).toInt := by
  rw [← sum_lanes (fun j => (A j).toInt * (T (j / 4) (4 * n + j % 4)).toInt) 16]
  refine Finset.sum_congr rfl fun k _ => Finset.sum_congr rfl fun e he => ?_
  have he4 := Finset.mem_range.mp he
  have hdiv : (4 * k + e) / 4 = k := by omega
  have hmod : (4 * k + e) % 4 = e := by omega
  rw [hdiv, hmod]

/-- The left row that selects one lane: 1 there, 0 elsewhere. -/
def unitRow (j : Nat) : Nat → Byte := fun i => if i = j then 1 else 0

/-- The products with a unit row select one factor. -/
theorem sum_unitRow {j size : Nat} (hj : j < size) (f : Nat → Int) :
    ∑ i ∈ Finset.range size, (unitRow j i).toInt * f i = f j := by
  rw [Finset.sum_eq_single_of_mem j (Finset.mem_range.mpr hj)]
  · simp [unitRow]
  · intro i _ hne
    simp [unitRow, hne]

/-- Settles O43: unit rows read a tile out of its grouped dot products, lane by lane; and under the packing the grouped
sum is the sum of the product. -/
theorem tilePackingIsTheOnlyOne : Obligations.TilePackingIsTheOnlyOne := by
  unfold Obligations.TilePackingIsTheOnlyOne
  intro B T
  simp only [sum_groups_eq]
  constructor
  · intro h k c hk hc
    have hunit := h (unitRow (4 * k + c % 4)) (c / 4) (by omega)
    rw [sum_unitRow (by omega), sum_unitRow (by omega)] at hunit
    have hrow : (4 * k + c % 4) / 4 = k := by omega
    have hcol : 4 * (c / 4) + (4 * k + c % 4) % 4 = c := by omega
    rw [hrow, hcol] at hunit
    exact BitVec.eq_of_toInt_eq hunit
  · intro h A n hn
    refine Finset.sum_congr rfl fun j hj => ?_
    have hj64 := Finset.mem_range.mp hj
    rw [h _ _ (by omega) (by omega), toTileB_lane B _ _ (Nat.mod_lt _ (by decide)), Nat.div_add_mod]

end Sys2Proof.Machine
end

section
/-! PROOFS. The Pipeline run step by step (41_pipeline.md R102, R116 to R119): the product of two partitions under any
covering tile shapes, the end state of `HCS` and what it depends on, and its equivalence with the 21 commands. -/

namespace Sys2Proof.Machine

/-! ### Completing a command between two operations -/

/-- `s` with other ports and another `STATUS`: the part of the state that no operation reads or writes. -/
def State.withRecord (s : State) (status : Status) (pending : List HostInput) (responses : List Response) : State :=
  { s with status := status, pending := pending, responses := responses }

section
variable (s : State) (st : Status) (p : List HostInput) (rs : List Response)

theorem withRecord_fAt : (s.withRecord st p rs).fAt = s.fAt := fAt_congr rfl rfl

theorem withRecord_kAt : (s.withRecord st p rs).kAt = s.kAt := kAt_congr rfl rfl

theorem withRecord_pipeQ : (s.withRecord st p rs).pipeQ = s.pipeQ := rfl

theorem withRecord_pipeM : (s.withRecord st p rs).pipeM = s.pipeM := rfl

theorem loadLeft_withRecord (i : Nat) : loadLeft i (s.withRecord st p rs) = (loadLeft i s).withRecord st p rs := by
  simp only [loadLeft, withRecord_fAt, withRecord_pipeQ, withRecord_pipeM]
  simp only [State.withRecord]

theorem loadRight_withRecord (i : Nat) : loadRight i (s.withRecord st p rs) = (loadRight i s).withRecord st p rs := by
  simp only [loadRight, withRecord_kAt, withRecord_pipeQ, withRecord_pipeM]
  simp only [State.withRecord]

theorem zeroAcc_withRecord : zeroAcc (s.withRecord st p rs) = (zeroAcc s).withRecord st p rs := rfl

theorem tmac_withRecord : tmac (s.withRecord st p rs) = (tmac s).withRecord st p rs := rfl

theorem extractDiag_withRecord (i : Nat) :
    extractDiag i (s.withRecord st p rs) = (extractDiag i s).withRecord st p rs := rfl

theorem pairStep_withRecord (i : Nat) : pairStep (s.withRecord st p rs) i = (pairStep s i).withRecord st p rs := by
  simp only [pairStep, loadLeft_withRecord, loadRight_withRecord, zeroAcc_withRecord, tmac_withRecord,
    extractDiag_withRecord]

theorem hadamardColumnSum_withRecord :
    hadamardColumnSum (s.withRecord st p rs) = (hadamardColumnSum s).withRecord st p rs := by
  have hstart : { s.withRecord st p rs with accShape := { rows := 16, cols := 16 } }
      = State.withRecord { s with accShape := { rows := 16, cols := 16 } } st p rs := rfl
  simp only [hadamardColumnSum_eq, hstart, pairStep_withRecord]

theorem withRecord_taAt : (s.withRecord st p rs).taAt = s.taAt := taAt_congr rfl

theorem withRecord_tbAt : (s.withRecord st p rs).tbAt = s.tbAt := tbAt_congr rfl

theorem withRecord_accAt : (s.withRecord st p rs).accAt = s.accAt := accAt_congr rfl

end

/-- The responses to `n` commands that succeed and return no data. -/
def okResponses (n : Nat) : List Response := List.replicate n { status := .ok, rdata := 0 }

/-- In the state `s`, whatever its ports and `STATUS` hold, the instruction succeeds with the effect that makes `u` of
it, and returns no data. -/
def RunsAs (i : Instr) (s u : State) : Prop :=
  ∀ st p rs, exec i (s.withRecord st p rs) = .next (u.withRecord { st with last := .ok } p (rs ++ okResponses 1))

theorem RunsAs.exec {i : Instr} {s u : State} (h : RunsAs i s u) :
    exec i s = .next (u.withRecord { s.status with last := .ok } s.pending (s.responses ++ okResponses 1)) :=
  h s.status s.pending s.responses

/-- An instruction that ends with `thenOk 0` after its effect, whatever the ports and `STATUS` hold, runs as that
effect. -/
theorem runsAs_of_exec {i : Instr} {s u : State}
    (h : ∀ st p rs, Machine.exec i (s.withRecord st p rs) = .next ((u.withRecord st p rs).thenOk 0)) : RunsAs i s u := h

theorem RunsBehindPipeCheck.runsAs {i : Instr} {op : State → State} (hrun : RunsBehindPipeCheck i op) {s : State}
    (hfit : s.PipeShapesFit) (hop : ∀ st p rs, op (s.withRecord st p rs) = (op s).withRecord st p rs) :
    RunsAs i s (op s) := by
  refine runsAs_of_exec fun st p rs => ?_
  have hfit' : (s.withRecord st p rs).PipeShapesFit := hfit
  rw [hrun.exec_of_fit hfit', hop]

section
variable {s : State}

theorem runsAs_plda (hfit : s.PipeShapesFit) (i : BitVec 2) : RunsAs (.plda i) s (loadLeft i.toNat s) :=
  (runsBehindPipeCheck_plda i).runsAs hfit fun st p rs => loadLeft_withRecord s st p rs i.toNat

theorem runsAs_pldb (hfit : s.PipeShapesFit) (i : BitVec 2) : RunsAs (.pldb i) s (loadRight i.toNat s) :=
  (runsBehindPipeCheck_pldb i).runsAs hfit fun st p rs => loadRight_withRecord s st p rs i.toNat

theorem runsAs_pdiag (hfit : s.PipeShapesFit) (i : BitVec 2) : RunsAs (.pdiag i) s (extractDiag i.toNat s) :=
  (runsBehindPipeCheck_pdiag i).runsAs hfit fun st p rs => extractDiag_withRecord s st p rs i.toNat

theorem runsAs_hcs (hfit : s.PipeShapesFit) : RunsAs .hcs s (hadamardColumnSum s) :=
  runsBehindPipeCheck_hcs.runsAs hfit (hadamardColumnSum_withRecord s)

theorem runsAs_tzero : RunsAs .tzero s (zeroAcc s) := fun _ _ _ => rfl

theorem runsAs_tmac (hfit : s.TileShapesFit) : RunsAs .tmac s (tmac s) := by
  refine runsAs_of_exec fun st p rs => ?_
  have hfit' : (s.withRecord st p rs).TileShapesFit := hfit
  rw [exec_tmac, if_pos hfit', tmac_withRecord]

theorem runsAs_fullAccShape :
    RunsAs (asmShape .accShape 16 16) s { s with accShape := { rows := 16, cols := 16 } } := fun _ _ _ => rfl

end

/-! ### The product of two partitions, step by step -/

/-- Both loads set the full tile shapes, which fit the full accumulator shape. -/
theorem tileShapesFit_loaded (i j : Nat) {s : State} (hacc : s.accShape = { rows := 16, cols := 16 }) :
    (zeroAcc (loadRight j (loadLeft i s))).TileShapesFit := by
  simp [State.TileShapesFit, hacc]

/-- A product of columns inside the partitions and 0 outside them is exact as a dword (41_pipeline.md R119). -/
theorem toInt_wrap32_columnProduct {s : State} (hrows : s.fShape.rows.toNat ≤ 64) (inside : Prop) [Decidable inside]
    (a b : Nat) :
    (wrap32 (if inside then s.columnProduct a b else 0)).toInt = if inside then s.columnProduct a b else 0 := by
  split
  · exact toInt_wrap32_of_bounds (columnProduct_bounds hrows a b)
  · rfl

/-- Settles O45: the four operations in a row are `multiplyPair`, whose dwords are exact. -/
theorem stepwisePairProduct : Obligations.StepwisePairProduct := by
  unfold Obligations.StepwisePairProduct
  intro s i j hfit hacc
  have ⟨_, _, _, hrows, _⟩ := hfit
  have hleft : (loadLeft i.toNat s).PipeShapesFit := hfit
  refine ⟨_, _, _, _, (runsAs_plda hfit i).exec, runsAs_pldb hleft j _ _ _, runsAs_tzero _ _ _,
    runsAs_tmac (tileShapesFit_loaded i.toNat j.toNat hacc) _ _ _, fun m n hm hn => ?_⟩
  rw [withRecord_accAt, ← multiplyPair, multiplyPair_accAt _ _ hrows hacc hm hn,
    toInt_wrap32_columnProduct hrows]
  rfl

/-- `TMAC` on two loaded tiles and a zero accumulator, under any tile shapes that cover the partitions
(41_pipeline.md R118). -/
theorem tmac_accAt_of_loaded {s w : State} {i j : Nat} (hta : w.taAt = (loadRight j (loadLeft i s)).taAt)
    (htb : w.tbAt = (loadRight j (loadLeft i s)).tbAt) (hzero : ∀ m n, w.accAt m n = 0)
    (hmultiple : w.taShape.cols.toNat % 4 = 0) (hM : s.pipeM ≤ w.taShape.cols.toNat)
    (hwidth : w.taShape.cols.toNat ≤ 64) (hrows : s.pipeQ ≤ w.accShape.rows.toNat)
    (hcols : s.pipeQ ≤ w.accShape.cols.toNat) {m n : Nat} (hm : m < 16) (hn : n < 16) :
    (tmac w).accAt m n
      = wrap32 (if m < s.pipeQ ∧ n < s.pipeQ then s.columnProduct (s.pipeQ * i + m) (s.pipeQ * j + n) else 0) := by
  have hwhole : 4 * (w.taShape.cols.toNat / 4) = w.taShape.cols.toNat := by omega
  have hzeroInt : (0 : Word).toInt = 0 := rfl
  rw [tmac_accAt_closed w hm hn, hzero, hzeroInt, zero_add, hwhole, tmacTerm_congr hta htb,
    sum_tmacTerm_loaded s i j hm hn hM hwidth]
  split
  case isTrue hrow =>
    rw [if_neg (by omega)]
    rfl
  case isFalse =>
    split
    case isTrue hcol =>
      rw [if_neg (by omega)]
      rfl
    case isFalse => rfl

/-- The tiles after `PLDA i`, `PLDB i`, `TZERO`. -/
theorem tiles_of_exec_loads {s t1 t2 t3 : State} {i : BitVec 2} (hfit : s.PipeShapesFit)
    (h1 : exec (.plda i) s = .next t1) (h2 : exec (.pldb i) t1 = .next t2) (h3 : exec .tzero t2 = .next t3) :
    t3.taAt = (loadRight i.toNat (loadLeft i.toNat s)).taAt ∧
      t3.tbAt = (loadRight i.toNat (loadLeft i.toNat s)).tbAt ∧ ∀ m n, t3.accAt m n = 0 := by
  have hleft : (loadLeft i.toNat s).PipeShapesFit := hfit
  cases (runsAs_plda hfit i).exec.symm.trans h1
  cases (runsAs_pldb hleft i _ _ _).symm.trans h2
  cases (runsAs_tzero _ _ _).symm.trans h3
  exact ⟨by rw [withRecord_taAt, zeroAcc_taAt], by rw [withRecord_tbAt, zeroAcc_tbAt], fun _ _ => rfl⟩

/-- Settles O46: the padding contributes nothing, so covering shapes all give the product. -/
theorem paddingIsNeutral : Obligations.PaddingIsNeutral := by
  unfold Obligations.PaddingIsNeutral
  intro s t1 t2 t3 i a b d hfit h1 h2 h3 htiles hM hwidth hdrows _ hdcols _
  have ⟨_, _, _, hrows, _⟩ := hfit
  have ⟨hmultiple, _, _, _⟩ := htiles
  obtain ⟨hta, htb, hzero⟩ := tiles_of_exec_loads hfit h1 h2 h3
  refine ⟨_, by rw [exec_tmac, if_pos htiles], fun m n hm hn => ?_⟩
  rw [thenOk_accAt, tmac_accAt_of_loaded (w := { t3 with taShape := a, tbShape := b, accShape := d }) hta htb hzero
    hmultiple hM hwidth hdrows hdcols hm hn, toInt_wrap32_columnProduct hrows]
  rfl

/-! ### The end state of `HCS` -/

section
variable {s t : State}

theorem State.SamePairInputs.pipeM (h : s.SamePairInputs t) : t.pipeM = s.pipeM := by
  simp only [State.pipeM, h.fShape]

theorem State.SamePairInputs.fAt (h : s.SamePairInputs t) : t.fAt = s.fAt := fAt_congr h.fmem h.fShape

theorem State.SamePairInputs.kAt (h : s.SamePairInputs t) : t.kAt = s.kAt := kAt_congr h.kmem h.kShape

end

/-- `HCS` ends with pair 3, taken in a state that has the matrices as they were and the full accumulator shape. -/
theorem hadamardColumnSum_last_pair (s : State) :
    ∃ u, State.SamePairInputs { s with accShape := { rows := 16, cols := 16 } } u ∧
      hadamardColumnSum s = pairStep u 3 := by
  refine ⟨_, .foldl_pairStep _ 3, ?_⟩
  rw [hadamardColumnSum, Config.partitions, List.range_succ, List.foldl_append, List.foldl_cons, List.foldl_nil]

/-- TA after `HCS` is the left operand of pair 3. -/
theorem hadamardColumnSum_taAt (s : State) {r c : Nat} (hr : r < 16) (hc : c < 64) :
    (hadamardColumnSum s).taAt r c = if r < s.pipeQ ∧ c < s.pipeM then s.fAt c (s.pipeQ * 3 + r) else 0 := by
  obtain ⟨u, hsame, hu⟩ := hadamardColumnSum_last_pair s
  have hta : (pairStep u 3).taAt = (loadLeft 3 u).taAt := by simp [pairStep]
  rw [hu, hta, loadLeft_taAt 3 u hr hc, hsame.pipeQ, hsame.pipeM, hsame.fAt]
  rfl

/-- TB after `HCS` is the packed right operand of pair 3. -/
theorem hadamardColumnSum_tbAt (s : State) {k n e : Nat} (hk : k < 16) (hn : n < 16) (he : e < 4) :
    (hadamardColumnSum s).tbAt k (4 * n + e)
      = if 4 * k + e < s.pipeM ∧ n < s.pipeQ then s.kAt (4 * k + e) (s.pipeQ * 3 + n) else 0 := by
  obtain ⟨u, hsame, hu⟩ := hadamardColumnSum_last_pair s
  have htb : (pairStep u 3).tbAt = (loadRight 3 (loadLeft 3 u)).tbAt := by simp [pairStep]
  have hkAt : (loadLeft 3 u).kAt = u.kAt := loadLeft_kAt 3 u
  have hpipeQ : (loadLeft 3 u).pipeQ = u.pipeQ := rfl
  have hpipeM : (loadLeft 3 u).pipeM = u.pipeM := rfl
  rw [hu, htb, loadRight_tbAt 3 _ hk hn he, hkAt, hpipeQ, hpipeM, hsame.pipeQ, hsame.pipeM, hsame.kAt]
  rfl

/-- ACC after `HCS` is the product of pair 3, and 0 outside it. -/
theorem hadamardColumnSum_accAt {s : State} (hrows : s.fShape.rows.toNat ≤ 64) {m n : Nat} (hm : m < 16)
    (hn : n < 16) :
    ((hadamardColumnSum s).accAt m n).toInt
      = if m < s.pipeQ ∧ n < s.pipeQ then s.columnProduct (s.pipeQ * 3 + m) (s.pipeQ * 3 + n) else 0 := by
  obtain ⟨u, hsame, hu⟩ := hadamardColumnSum_last_pair s
  have hacc : (pairStep u 3).accAt = (multiplyPair 3 3 u).accAt := by rw [pairStep_eq, extractDiag_accAt]
  have hrows' : u.fShape.rows.toNat ≤ 64 := hsame.fShape ▸ hrows
  rw [hu, hacc, multiplyPair_accAt 3 3 hrows' hsame.accShape hm hn, toInt_wrap32_columnProduct hrows', hsame.pipeQ,
    hsame.columnProduct]
  rfl

theorem hadamardColumnSum_column {s : State} (hfit : s.PipeShapesFit) {j : Nat} (hj : j < s.fShape.cols.toNat) :
    ((hadamardColumnSum s).vAt j).toInt = s.columnProduct j j := by
  have ⟨_, _, _, hrows, _⟩ := hfit
  rw [hadamardColumnSum_vAt hfit, if_pos hj, toInt_wrap32_of_bounds (columnProduct_bounds hrows j j)]

/-- Settles O47: the update that `HCS` is, with each storage it writes read element by element. -/
theorem hcsEndState : Obligations.HcsEndState := by
  unfold Obligations.HcsEndState
  intro s hfit
  have ⟨_, _, _, hrows, _⟩ := hfit
  have hexec := runsBehindPipeCheck_hcs.exec_of_fit hfit
  rw [hadamardColumnSum_update] at hexec
  have hsums := fun j (hj : j < s.fShape.cols.toNat) => hadamardColumnSum_column hfit hj
  have hrest := fun j (hj : s.fShape.cols.toNat ≤ j) =>
    (hadamardColumnSum_vAt hfit j).trans (if_neg (Nat.not_lt.mpr hj))
  have hta := fun r c => hadamardColumnSum_taAt s (r := r) (c := c)
  have htb := fun k n e => hadamardColumnSum_tbAt s (k := k) (n := n) (e := e)
  have hacc := fun m n => hadamardColumnSum_accAt hrows (m := m) (n := n)
  generalize hadamardColumnSum s = t at hexec hsums hrest hta htb hacc
  exact ⟨t.ta, t.tb, t.acc, t.v, hexec, hsums, hrest, hta, htb, hacc⟩

/-! ### The range of the results -/

/-- A matrix of elements -128 everywhere reaches the bound in every column. -/
theorem columnProduct_extreme {s : State} (hf : s.fShape = { rows := 64, cols := 64 })
    (hk : s.kShape = { rows := 64, cols := 64 })
    (hmem : ∀ j, j < 4096 → Store.read s.fmem j = 0x80 ∧ Store.read s.kmem j = 0x80) {j : Nat} (hj : j < 64) :
    s.columnProduct j j = 1048576 := by
  have hcols : (64 : BitVec 8).toNat = 64 := rfl
  have hterm : ∀ r ∈ Finset.range 64, (s.fAt r j).toInt * (s.kAt r j).toInt = 16384 := by
    intro r hr
    have hr64 := Finset.mem_range.mp hr
    obtain ⟨hfmem, hkmem⟩ := hmem (rowMajor 64 r j) (by unfold rowMajor; omega)
    rw [State.fAt, State.kAt, hf, hk, hcols, hfmem, hkmem]
    rfl
  rw [State.columnProduct, hf, hcols, Finset.sum_congr rfl hterm]
  simp

/-- Settles O50: the results are column products, bounded and, for the extreme matrices, at the bound. -/
theorem hcsResultRange : Obligations.HcsResultRange := by
  unfold Obligations.HcsResultRange
  constructor
  · intro s t hfit h
    have ⟨_, _, _, hrows, _⟩ := hfit
    rw [runsBehindPipeCheck_hcs.exec_of_fit hfit] at h
    cases h
    rw [thenOk_vAt, thenOk_accAt]
    refine ⟨fun j hj => ?_, fun m n hm hn => ?_⟩
    · rw [hadamardColumnSum_column hfit hj]
      exact columnProduct_bounds hrows j j
    · rw [hadamardColumnSum_accAt hrows hm hn]
      split
      · exact columnProduct_bounds hrows _ _
      · decide
  · intro s t hf hk hmem h j hj
    have hfit : s.PipeShapesFit := by
      rw [State.PipeShapesFit, hf, hk]
      decide
    have hcols : j < s.fShape.cols.toNat := by rwa [hf]
    rw [runsBehindPipeCheck_hcs.exec_of_fit hfit] at h
    cases h
    rw [thenOk_vAt, hadamardColumnSum_column hfit hcols, columnProduct_extreme hf hk hmem hj]

/-! ### What `HCS` depends on -/

/-- Two states hold the same two matrices, within their shape. -/
structure State.SameMatrices (s u : State) : Prop where
  fShape : s.fShape = u.fShape
  kShape : s.kShape = u.kShape
  elements : ∀ r c, r < s.fShape.rows.toNat → c < s.fShape.cols.toNat → s.fAt r c = u.fAt r c ∧ s.kAt r c = u.kAt r c

/-- Column a of partition 3 lies within the matrix. -/
theorem last_partition_lt {s : State} {a : Nat} (ha : a < s.pipeQ) : s.pipeQ * 3 + a < s.fShape.cols.toNat := by
  have hN : s.pipeQ * 4 ≤ s.fShape.cols.toNat := Nat.div_mul_le_self _ _
  omega

section
variable {s u : State}

theorem State.SameMatrices.pipeQ (h : s.SameMatrices u) : s.pipeQ = u.pipeQ := by
  simp only [State.pipeQ, State.pipeN, h.fShape]

theorem State.SameMatrices.pipeM (h : s.SameMatrices u) : s.pipeM = u.pipeM := by
  simp only [State.pipeM, h.fShape]

theorem State.SameMatrices.pipeShapesFit (h : s.SameMatrices u) (hfit : s.PipeShapesFit) : u.PipeShapesFit := by
  rwa [State.PipeShapesFit, ← h.fShape, ← h.kShape]

theorem State.SameMatrices.columnProduct (h : s.SameMatrices u) {a b : Nat} (ha : a < s.fShape.cols.toNat)
    (hb : b < s.fShape.cols.toNat) : s.columnProduct a b = u.columnProduct a b := by
  rw [State.columnProduct, State.columnProduct, ← h.fShape]
  refine Finset.sum_congr rfl fun r hr => ?_
  have hr' := Finset.mem_range.mp hr
  rw [(h.elements r a hr' ha).1, (h.elements r b hr' hb).2]

theorem State.SameMatrices.taAt (h : s.SameMatrices u) {r c : Nat} (hr : r < 16) (hc : c < 64) :
    (hadamardColumnSum s).taAt r c = (hadamardColumnSum u).taAt r c := by
  rw [hadamardColumnSum_taAt s hr hc, hadamardColumnSum_taAt u hr hc, ← h.pipeQ, ← h.pipeM]
  split
  case isTrue hin => exact (h.elements c _ hin.2 (last_partition_lt hin.1)).1
  case isFalse => rfl

theorem State.SameMatrices.tbAt (h : s.SameMatrices u) {r c : Nat} (hr : r < 16) (hc : c < 64) :
    (hadamardColumnSum s).tbAt r c = (hadamardColumnSum u).tbAt r c := by
  have hs := hadamardColumnSum_tbAt s (n := c / 4) (e := c % 4) hr (by omega) (by omega)
  have hu := hadamardColumnSum_tbAt u (n := c / 4) (e := c % 4) hr (by omega) (by omega)
  rw [Nat.div_add_mod] at hs hu
  rw [hs, hu, ← h.pipeQ, ← h.pipeM]
  split
  case isTrue hin => exact (h.elements _ _ hin.1 (last_partition_lt hin.2)).2
  case isFalse => rfl

theorem State.SameMatrices.accAt (h : s.SameMatrices u) (hrows : s.fShape.rows.toNat ≤ 64) {m n : Nat} (hm : m < 16)
    (hn : n < 16) : (hadamardColumnSum s).accAt m n = (hadamardColumnSum u).accAt m n := by
  apply BitVec.eq_of_toInt_eq
  rw [hadamardColumnSum_accAt hrows hm hn, hadamardColumnSum_accAt (h.fShape ▸ hrows) hm hn, ← h.pipeQ]
  split
  case isTrue hin => exact h.columnProduct (last_partition_lt hin.1) (last_partition_lt hin.2)
  case isFalse => rfl

theorem State.SameMatrices.vAt (h : s.SameMatrices u) (hfit : s.PipeShapesFit) {j : Nat}
    (hj : j < s.fShape.cols.toNat) : (hadamardColumnSum s).vAt j = (hadamardColumnSum u).vAt j := by
  apply BitVec.eq_of_toInt_eq
  rw [hadamardColumnSum_column hfit hj, hadamardColumnSum_column (h.pipeShapesFit hfit) (h.fShape ▸ hj),
    h.columnProduct hj hj]

end

/-- Settles O51: every element that `HCS` writes is a function of the two matrices. -/
theorem hcsDependsOnMatricesOnly : Obligations.HcsDependsOnMatricesOnly := by
  unfold Obligations.HcsDependsOnMatricesOnly
  intro s u t w hfit hf hk helements ht hw
  have hsame : s.SameMatrices u := ⟨hf, hk, helements⟩
  have ⟨_, _, _, hrows, _⟩ := hfit
  rw [runsBehindPipeCheck_hcs.exec_of_fit hfit] at ht
  rw [runsBehindPipeCheck_hcs.exec_of_fit (hsame.pipeShapesFit hfit)] at hw
  cases ht
  cases hw
  simp only [thenOk_vAt, thenOk_taAt, thenOk_tbAt, thenOk_accAt, thenOk_vLen, hadamardColumnSum_vLen]
  exact ⟨fun j => hsame.vAt hfit, fun r c hr hc => ⟨hsame.taAt hr hc, hsame.tbAt hr hc⟩,
    fun m n => hsame.accAt hrows, congrArg Shape.cols hf⟩

/-! ### `HCS` and the 21 commands -/

/-- The instructions, one after another, succeed with effects that make `t` of `s`. -/
inductive RunsAll : List Instr → State → State → Prop
  | nil (s : State) : RunsAll [] s s
  | cons {i : Instr} {rest : List Instr} {s u t : State} (first : RunsAs i s u) (others : RunsAll rest u t) :
      RunsAll (i :: rest) s t

theorem RunsAll.append {xs ys : List Instr} {s u t : State} (hxs : RunsAll xs s u) (hys : RunsAll ys u t) :
    RunsAll (xs ++ ys) s t := by
  induction hxs with
  | nil => exact hys
  | cons first _ ih => exact .cons first (ih hys)

/-- The host presents the instructions as their encodings. -/
def present (is : List Instr) : List HostInput := is.map fun i => .command (encode i)

theorem run_of_step {s t : State} (h : step s = .next t) (k : Nat) : core.run (k + 1) s = core.run k t := by
  have hcore : core.step s = .next t := h
  simp only [Host.Core.run, hcore]

theorem step_of_presented (s : State) (st : Status) (i : Instr) (rest : List HostInput) (rs : List Response) :
    step (s.withRecord st (.command (encode i) :: rest) rs) = exec i (s.withRecord st rest rs) :=
  (step_of_command rfl).trans (execCommand_of_decode (decode_encode i) _)

/-- One presented instruction of a run. -/
theorem RunsAs.run {i : Instr} {s u : State} (h : RunsAs i s u) (k : Nat) (st : Status) (rest : List HostInput)
    (rs : List Response) :
    core.run (k + 1) (s.withRecord st (.command (encode i) :: rest) rs)
      = core.run k (u.withRecord { st with last := .ok } rest (rs ++ okResponses 1)) :=
  run_of_step ((step_of_presented s st i rest rs).trans (h st rest rs)) k

/-- Presented instructions that all succeed run to the end of their effects, with one response each. -/
theorem RunsAll.run {is : List Instr} {s t : State} (h : RunsAll is s t) {st : Status} (hst : st.last = .ok)
    (rest : List HostInput) (rs : List Response) :
    core.run is.length (s.withRecord st (present is ++ rest) rs)
      = .next (t.withRecord st rest (rs ++ okResponses is.length)) := by
  induction h generalizing rs with
  | nil s => rw [okResponses, List.length_nil, List.replicate_zero, List.append_nil]; rfl
  | @cons i is s u t first others ih =>
    have hsame : { st with last := .ok } = st := by rw [← hst]
    have hcount : okResponses 1 ++ okResponses is.length = okResponses (i :: is).length := rfl
    calc core.run (i :: is).length (s.withRecord st (present (i :: is) ++ rest) rs)
        = core.run is.length (u.withRecord st (present is ++ rest) (rs ++ okResponses 1)) := by
          rw [← hsame]
          exact first.run is.length _ (present is ++ rest) rs
      _ = .next (t.withRecord st rest (rs ++ okResponses (i :: is).length)) := by
          rw [ih, List.append_assoc, hcount]

/-- The five commands of pair i (41_pipeline.md R102). -/
def pairCommands (i : BitVec 2) : List Instr := [.plda i, .pldb i, .tzero, .tmac, .pdiag i]

theorem runsAll_pairCommands {s : State} (hfit : s.PipeShapesFit) (hacc : s.accShape = { rows := 16, cols := 16 })
    (i : BitVec 2) : RunsAll (pairCommands i) s (pairStep s i.toNat) :=
  .cons (runsAs_plda hfit i) <| .cons (runsAs_pldb (s := loadLeft i.toNat s) hfit i) <| .cons runsAs_tzero <|
    .cons (runsAs_tmac (tileShapesFit_loaded i.toNat i.toNat hacc)) <|
    .cons (runsAs_pdiag (s := multiplyPair i.toNat i.toNat s) hfit i) <| .nil _

/-- The commands of the four pairs, from the full accumulator shape on, have the effect of `HCS`. -/
theorem runsAll_fourPairs {s : State} (hfit : s.PipeShapesFit) :
    RunsAll ([0, 1, 2, 3].flatMap pairCommands) { s with accShape := { rows := 16, cols := 16 } }
      (hadamardColumnSum s) := by
  have hpair (i : BitVec 2) {u : State}
      (h : State.SamePairInputs { s with accShape := { rows := 16, cols := 16 } } u) :
      RunsAll (pairCommands i) u (pairStep u i.toNat) := by
    refine runsAll_pairCommands ?_ h.accShape i
    rw [State.PipeShapesFit, h.fShape, h.kShape]
    exact hfit
  have h0 := State.SamePairInputs.foldl_pairStep { s with accShape := { rows := 16, cols := 16 } } 0
  have h1 := h0.pairStep 0
  have h2 := h1.pairStep 1
  have h3 := h2.pairStep 2
  rw [hadamardColumnSum_eq]
  exact (hpair 0 h0).append <| (hpair 1 h1).append <| (hpair 2 h2).append <| (hpair 3 h3).append <| .nil _

theorem withRecord_withResponses (s : State) (st : Status) (p : List HostInput) (rs rs' : List Response) :
    { s.withRecord st p rs with responses := rs' } = s.withRecord st p rs' := rfl

/-- What is presented first, and the 20 commands of the pairs after it. -/
theorem stepwiseHcs_eq :
    stepwiseHcs
      = .command (encode (asmShape .accShape 16 16)) :: present ([0, 1, 2, 3].flatMap pairCommands) := rfl

/-- The 21 presented commands run to the effect of `HCS`. -/
theorem run_stepwiseHcs {s : State} (hfit : s.PipeShapesFit) (st : Status) (rest : List HostInput)
    (rs : List Response) :
    core.run 21 (s.withRecord st (stepwiseHcs ++ rest) rs)
      = .next ((hadamardColumnSum s).withRecord { st with last := .ok } rest (rs ++ okResponses 21)) := by
  have hlength : ([0, 1, 2, 3].flatMap pairCommands).length = 20 := rfl
  have hcount : okResponses 1 ++ okResponses 20 = okResponses 21 := rfl
  have hpairs := (runsAll_fourPairs hfit).run (st := { st with last := .ok }) rfl rest (rs ++ okResponses 1)
  rw [hlength, List.append_assoc, hcount] at hpairs
  rw [stepwiseHcs_eq, List.cons_append, runsAs_fullAccShape.run, hpairs]

/-- Settles O48: the 21 commands run, each with the effect of its operation, to the state `HCS` makes. -/
theorem hcsEqualsStepwise : Obligations.HcsEqualsStepwise := by
  unfold Obligations.HcsEqualsStepwise
  intro s rest hfit hp
  have hrun := run_stepwiseHcs hfit s.status rest s.responses
  rw [← hp] at hrun
  exact ⟨_, _, hrun, runsAs_hcs hfit s.status rest s.responses, (withRecord_withResponses ..).symm⟩

end Sys2Proof.Machine
end
